-- ==== Sys2Proof/Word.lean ====
section
/-!
DEFINITION. The word types of the machine (spec/00_scope.md R4, R5). Every value is unsigned.
-/

namespace Sys2Proof

/-- A memory cell, a general register or a timer: `XLEN` = 8 bits (R4). -/
abbrev Byte := BitVec 8

/-- An instruction word, `I`, `PC` or a stack entry: 16 bits (R4). -/
abbrev Word := BitVec 16

/-- The index of one of the `NREG` = 16 general registers, V0 to VF (R11). -/
abbrev RegIdx := Fin 16

/-- The index of one of the `NKEYS` = 16 keys (R17). -/
abbrev KeyIdx := Fin 16

end Sys2Proof
end

