-- ==== Sys2Proof/Syntax.lean ====
section
/-!
DEFINITION. The instructions: one constructor for each row of spec/opcode_table.json (table E3 of
spec/30_encoding.md R50, and the catch-all row UNASSIGNED of R51 and R68). The operands are the
fields of R46: `x`, `y` register indices, `kk` an 8-bit and `nnn` a 12-bit number, `n` a row count.
-/

namespace Sys2Proof

/-- An instruction with its fields. -/
inductive Instr where
  /-- `00E0`, clear the framebuffer (R120). -/
  | cls
  /-- `00EE`, return from subroutine (R80). -/
  | ret
  /-- `1nnn`, jump (R81). -/
  | jp (nnn : BitVec 12)
  /-- `2nnn`, call subroutine (R82). -/
  | call (nnn : BitVec 12)
  /-- `3xkk`, skip if equal to an immediate (R83). -/
  | seKk (x : RegIdx) (kk : Byte)
  /-- `4xkk`, skip if not equal to an immediate (R84). -/
  | sneKk (x : RegIdx) (kk : Byte)
  /-- `5xy0`, skip if two registers are equal (R85). -/
  | seVy (x y : RegIdx)
  /-- `6xkk`, load an immediate (R90). -/
  | ldKk (x : RegIdx) (kk : Byte)
  /-- `7xkk`, add an immediate, no flag (R91). -/
  | addKk (x : RegIdx) (kk : Byte)
  /-- `8xy0`, copy a register (R92). -/
  | ldVy (x y : RegIdx)
  /-- `8xy1`, bitwise or (R93). -/
  | orVy (x y : RegIdx)
  /-- `8xy2`, bitwise and (R94). -/
  | andVy (x y : RegIdx)
  /-- `8xy3`, bitwise exclusive or (R95). -/
  | xorVy (x y : RegIdx)
  /-- `8xy4`, add with carry out (R96). -/
  | addVy (x y : RegIdx)
  /-- `8xy5`, subtract with not-borrow (R97). -/
  | subVy (x y : RegIdx)
  /-- `8xy6`, shift right; the field `y` is in the word and is ignored (R98, U12). -/
  | shr (x y : RegIdx)
  /-- `8xy7`, reverse subtract with not-borrow (R99). -/
  | subn (x y : RegIdx)
  /-- `8xyE`, shift left; the field `y` is in the word and is ignored (R100, U12). -/
  | shl (x y : RegIdx)
  /-- `9xy0`, skip if two registers differ (R86). -/
  | sneVy (x y : RegIdx)
  /-- `Annn`, load the index register (R110). -/
  | ldI (nnn : BitVec 12)
  /-- `Bnnn`, jump indexed by V0 (R87). -/
  | jpV0 (nnn : BitVec 12)
  /-- `Cxkk`, random byte and mask (R101). -/
  | rnd (x : RegIdx) (kk : Byte)
  /-- `Dxyn`, draw a sprite of `n` rows (R121). -/
  | drw (x y : RegIdx) (n : BitVec 4)
  /-- `Ex9E`, skip if a key is pressed (R130). -/
  | skp (x : RegIdx)
  /-- `ExA1`, skip if a key is released (R131). -/
  | sknp (x : RegIdx)
  /-- `Fx07`, read the delay timer (R133). -/
  | ldVxDt (x : RegIdx)
  /-- `Fx0A`, wait for a key (R132). -/
  | ldVxK (x : RegIdx)
  /-- `Fx15`, write the delay timer (R134). -/
  | ldDtVx (x : RegIdx)
  /-- `Fx18`, write the sound timer (R135). -/
  | ldStVx (x : RegIdx)
  /-- `Fx1E`, add to the index register (R111). -/
  | addI (x : RegIdx)
  /-- `Fx29`, address of a glyph (R112). -/
  | ldF (x : RegIdx)
  /-- `Fx33`, store three decimal digits (R113). -/
  | ldB (x : RegIdx)
  /-- `Fx55`, store V0 to Vx (R114). -/
  | stRegs (x : RegIdx)
  /-- `Fx65`, load V0 to Vx (R115). -/
  | ldRegs (x : RegIdx)
  /-- Any word that matches no other row (R51, R68); the word is kept so that it can be encoded. -/
  | unassigned (op : Word)
  deriving DecidableEq, Repr

/-- The row of spec/opcode_table.json an instruction belongs to, by its mnemonic. -/
def Instr.mnemonic : Instr → String
  | .cls => "CLS"
  | .ret => "RET"
  | .jp _ => "JP"
  | .call _ => "CALL"
  | .seKk _ _ => "SE_KK"
  | .sneKk _ _ => "SNE_KK"
  | .seVy _ _ => "SE_VY"
  | .ldKk _ _ => "LD_KK"
  | .addKk _ _ => "ADD_KK"
  | .ldVy _ _ => "LD_VY"
  | .orVy _ _ => "OR"
  | .andVy _ _ => "AND"
  | .xorVy _ _ => "XOR"
  | .addVy _ _ => "ADD_VY"
  | .subVy _ _ => "SUB"
  | .shr _ _ => "SHR"
  | .subn _ _ => "SUBN"
  | .shl _ _ => "SHL"
  | .sneVy _ _ => "SNE_VY"
  | .ldI _ => "LD_I"
  | .jpV0 _ => "JP_V0"
  | .rnd _ _ => "RND"
  | .drw _ _ _ => "DRW"
  | .skp _ => "SKP"
  | .sknp _ => "SKNP"
  | .ldVxDt _ => "LD_VX_DT"
  | .ldVxK _ => "LD_VX_K"
  | .ldDtVx _ => "LD_DT_VX"
  | .ldStVx _ => "LD_ST_VX"
  | .addI _ => "ADD_I"
  | .ldF _ => "LD_F"
  | .ldB _ => "LD_B"
  | .stRegs _ => "ST_REGS"
  | .ldRegs _ => "LD_REGS"
  | .unassigned _ => "UNASSIGNED"

end Sys2Proof
end

