-- ==== Sys2Proof/WellFormed.lean ====
section
/-!
DEFINITION. Which terms of `Instr` are instructions of the machine. The types of the fields already
keep every field inside its width (R46), so the one check left is that `unassigned` holds an
unassigned word (R51).
-/

namespace Sys2Proof

/-- The unassigned words as R51 lists them, group by group: (a) group 0, (b) group 5, (c) group 8,
(d) group 9, (e) group E, (f) group F. -/
def unassignedWord (op : Word) : Bool :=
  let w := op.toNat
  let g := w / 0x1000
  let n := w % 0x10
  let kk := w % 0x100
  (g == 0x0 && w != 0x00E0 && w != 0x00EE) ||
  (g == 0x5 && n != 0x0) ||
  (g == 0x8 && [0x8, 0x9, 0xA, 0xB, 0xC, 0xD, 0xF].contains n) ||
  (g == 0x9 && n != 0x0) ||
  (g == 0xE && kk != 0x9E && kk != 0xA1) ||
  (g == 0xF && !([0x07, 0x0A, 0x15, 0x18, 0x1E, 0x29, 0x33, 0x55, 0x65].contains kk))

/-- An instruction is well-formed when some word means it. -/
def Instr.wellFormed : Instr → Bool
  | .cls | .ret | .jp _ | .call _ | .seKk _ _ | .sneKk _ _ | .seVy _ _ | .ldKk _ _ | .addKk _ _
  | .ldVy _ _ | .orVy _ _ | .andVy _ _ | .xorVy _ _ | .addVy _ _ | .subVy _ _ | .shr _ _
  | .subn _ _ | .shl _ _ | .sneVy _ _ | .ldI _ | .jpV0 _ | .rnd _ _ | .drw _ _ _ | .skp _
  | .sknp _ | .ldVxDt _ | .ldVxK _ | .ldDtVx _ | .ldStVx _ | .addI _ | .ldF _ | .ldB _
  | .stRegs _ | .ldRegs _ => true
  | .unassigned op => unassignedWord op

end Sys2Proof
end

