-- ==== Sys2Proof/Decode.lean ====
section
/-!
DEFINITION. The decoder of spec/30_encoding.md R49, total on any bytes; the opcode map of R50 (table
E3) as data; and the encoder, written from the formats of R47 (table E2).
-/

namespace Sys2Proof

/-! ### Fields (R46, table E1) -/

/-- `g` = `op[15:12]`, the primary group. -/
def opG (op : Word) : BitVec 4 := op.extractLsb' 12 4
/-- `x` = `op[11:8]`, a register index. -/
def opX (op : Word) : RegIdx := (op.extractLsb' 8 4).toFin
/-- `y` = `op[7:4]`, a register index. -/
def opY (op : Word) : RegIdx := (op.extractLsb' 4 4).toFin
/-- `n` = `op[3:0]`. -/
def opN (op : Word) : BitVec 4 := op.extractLsb' 0 4
/-- `kk` = `op[7:0]`. -/
def opKk (op : Word) : Byte := op.extractLsb' 0 8
/-- `nnn` = `op[11:0]`. -/
def opNnn (op : Word) : BitVec 12 := op.extractLsb' 0 12

/-! ### Decoding a word (R49) -/

/-- Group 0: the whole word selects. -/
def decodeGroup0 (op : Word) : Instr :=
  if op = 0x00E0#16 then .cls
  else if op = 0x00EE#16 then .ret
  else .unassigned op

/-- Group 8: `n` selects among the nine ALU instructions. -/
def decodeGroup8 (op : Word) : Instr :=
  match (opN op).toNat with
  | 0x0 => .ldVy (opX op) (opY op)
  | 0x1 => .orVy (opX op) (opY op)
  | 0x2 => .andVy (opX op) (opY op)
  | 0x3 => .xorVy (opX op) (opY op)
  | 0x4 => .addVy (opX op) (opY op)
  | 0x5 => .subVy (opX op) (opY op)
  | 0x6 => .shr (opX op) (opY op)
  | 0x7 => .subn (opX op) (opY op)
  | 0xE => .shl (opX op) (opY op)
  | _ => .unassigned op

/-- Group E: `kk` selects. -/
def decodeGroupE (op : Word) : Instr :=
  if opKk op = 0x9E#8 then .skp (opX op)
  else if opKk op = 0xA1#8 then .sknp (opX op)
  else .unassigned op

/-- Group F: `kk` selects. -/
def decodeGroupF (op : Word) : Instr :=
  if opKk op = 0x07#8 then .ldVxDt (opX op)
  else if opKk op = 0x0A#8 then .ldVxK (opX op)
  else if opKk op = 0x15#8 then .ldDtVx (opX op)
  else if opKk op = 0x18#8 then .ldStVx (opX op)
  else if opKk op = 0x1E#8 then .addI (opX op)
  else if opKk op = 0x29#8 then .ldF (opX op)
  else if opKk op = 0x33#8 then .ldB (opX op)
  else if opKk op = 0x55#8 then .stRegs (opX op)
  else if opKk op = 0x65#8 then .ldRegs (opX op)
  else .unassigned op

/-- The decode procedure of R49. Every literal digit of a pattern must match (D8); every other word
is unassigned, so decoding is total and never faults (R63). -/
def decode (op : Word) : Instr :=
  match (opG op).toNat with
  | 0x0 => decodeGroup0 op
  | 0x1 => .jp (opNnn op)
  | 0x2 => .call (opNnn op)
  | 0x3 => .seKk (opX op) (opKk op)
  | 0x4 => .sneKk (opX op) (opKk op)
  | 0x5 => if opN op = 0x0#4 then .seVy (opX op) (opY op) else .unassigned op
  | 0x6 => .ldKk (opX op) (opKk op)
  | 0x7 => .addKk (opX op) (opKk op)
  | 0x8 => decodeGroup8 op
  | 0x9 => if opN op = 0x0#4 then .sneVy (opX op) (opY op) else .unassigned op
  | 0xA => .ldI (opNnn op)
  | 0xB => .jpV0 (opNnn op)
  | 0xC => .rnd (opX op) (opKk op)
  | 0xD => .drw (opX op) (opY op) (opN op)
  | 0xE => decodeGroupE op
  | _ => decodeGroupF op

/-! ### Bytes (R32, R45) -/

/-- Two bytes, the one at the lower address first, as a word: big-endian (R32). -/
def wordOfBytes (hi lo : Byte) : Word := hi ++ lo

/-- The byte of a word at the lower address, `op[15:8]` (R32). -/
def hiByte (op : Word) : Byte := op.extractLsb' 8 8
/-- The byte of a word at the higher address, `op[7:0]` (R32). -/
def loByte (op : Word) : Byte := op.extractLsb' 0 8

/-- Why a list of bytes holds no instruction: the only reason is that it ends too early, since
every word decodes (R51, R52). -/
inductive DecodeError where
  /-- Fewer than the two bytes that every instruction has (R45). -/
  | truncated
  deriving DecidableEq, Repr

/-- Decode the first instruction of a list of bytes and give the rest of the list (R45, R52). -/
def decodeBytes : List Byte → Except DecodeError (Instr × List Byte)
  | hi :: lo :: rest => .ok (decode (wordOfBytes hi lo), rest)
  | _ => .error .truncated

/-- The instruction the decoder reads from a row's word of `nbits` bits, stored as the hardware
stores it. An instruction has 16 bits (R45), so a longer one is refused. -/
def decodeTableWord (nbits w : Nat) : Option Instr :=
  if nbits ≤ 16 then
    let op : Word := BitVec.ofNat 16 (w % 2 ^ nbits)
    match decodeBytes [hiByte op, loByte op] with
    | .ok (i, _) => some i
    | .error _ => none
  else none

/-! ### The opcode map (R50, table E3) -/

/-- A row of table E3: a word `op` selects it when `op & mask == match`. -/
structure OpRow where
  /-- The table id of the row. -/
  mnemonic : String
  /-- The fixed bits. -/
  mask : Word
  /-- The values of the fixed bits. -/
  bits : Word
  deriving DecidableEq, Repr

/-- Does the word select the row? (R50) -/
def OpRow.selects (r : OpRow) (op : Word) : Bool := op &&& r.mask == r.bits

/-- The rows of formats Z and A and of the skips, as table E3 gives them. -/
def opcodeMapControl : List OpRow :=
  [⟨"CLS", 0xFFFF, 0x00E0⟩, ⟨"RET", 0xFFFF, 0x00EE⟩, ⟨"JP", 0xF000, 0x1000⟩,
   ⟨"CALL", 0xF000, 0x2000⟩, ⟨"SE_KK", 0xF000, 0x3000⟩, ⟨"SNE_KK", 0xF000, 0x4000⟩,
   ⟨"SE_VY", 0xF00F, 0x5000⟩]

/-- Groups 6 to 8. -/
def opcodeMapAlu : List OpRow :=
  [⟨"LD_KK", 0xF000, 0x6000⟩, ⟨"ADD_KK", 0xF000, 0x7000⟩, ⟨"LD_VY", 0xF00F, 0x8000⟩,
   ⟨"OR", 0xF00F, 0x8001⟩, ⟨"AND", 0xF00F, 0x8002⟩, ⟨"XOR", 0xF00F, 0x8003⟩,
   ⟨"ADD_VY", 0xF00F, 0x8004⟩, ⟨"SUB", 0xF00F, 0x8005⟩, ⟨"SHR", 0xF00F, 0x8006⟩,
   ⟨"SUBN", 0xF00F, 0x8007⟩, ⟨"SHL", 0xF00F, 0x800E⟩]

/-- Groups 9 to E. -/
def opcodeMapIndex : List OpRow :=
  [⟨"SNE_VY", 0xF00F, 0x9000⟩, ⟨"LD_I", 0xF000, 0xA000⟩, ⟨"JP_V0", 0xF000, 0xB000⟩,
   ⟨"RND", 0xF000, 0xC000⟩, ⟨"DRW", 0xF000, 0xD000⟩, ⟨"SKP", 0xF0FF, 0xE09E⟩,
   ⟨"SKNP", 0xF0FF, 0xE0A1⟩]

/-- Group F. -/
def opcodeMapGroupF : List OpRow :=
  [⟨"LD_VX_DT", 0xF0FF, 0xF007⟩, ⟨"LD_VX_K", 0xF0FF, 0xF00A⟩, ⟨"LD_DT_VX", 0xF0FF, 0xF015⟩,
   ⟨"LD_ST_VX", 0xF0FF, 0xF018⟩, ⟨"ADD_I", 0xF0FF, 0xF01E⟩, ⟨"LD_F", 0xF0FF, 0xF029⟩,
   ⟨"LD_B", 0xF0FF, 0xF033⟩, ⟨"ST_REGS", 0xF0FF, 0xF055⟩, ⟨"LD_REGS", 0xF0FF, 0xF065⟩]

/-- Table E3: the 34 assigned rows. -/
def opcodeMap : List OpRow :=
  opcodeMapControl ++ opcodeMapAlu ++ opcodeMapIndex ++ opcodeMapGroupF

/-! ### Encoding (R47, table E2) -/

/-- The four bits of a register field. -/
def regBits (r : RegIdx) : BitVec 4 := BitVec.ofFin r

/-- Format A: `g`, then the 12-bit `nnn`. -/
def formatA (g : BitVec 4) (nnn : BitVec 12) : Word := g ++ nnn
/-- Format I: `g`, `x`, then the 8-bit `kk`. -/
def formatI (g : BitVec 4) (x : RegIdx) (kk : Byte) : Word := (g ++ regBits x) ++ kk
/-- Format R: `g`, `x`, `y`, then a literal function digit. -/
def formatR (g : BitVec 4) (x y : RegIdx) (f : BitVec 4) : Word :=
  ((g ++ regBits x) ++ regBits y) ++ f
/-- Format D: the digit D, `x`, `y`, then the 4-bit `n`. -/
def formatD (x y : RegIdx) (n : BitVec 4) : Word := ((0xD#4 ++ regBits x) ++ regBits y) ++ n
/-- Format X: `g`, `x`, then a literal function byte. -/
def formatX (g : BitVec 4) (x : RegIdx) (f : Byte) : Word := (g ++ regBits x) ++ f

/-- The word of an instruction, by the format and the literal digits of its row (tables E2, E3). -/
def encode : Instr → Word
  | .cls => 0x00E0
  | .ret => 0x00EE
  | .jp nnn => formatA 0x1 nnn
  | .call nnn => formatA 0x2 nnn
  | .seKk x kk => formatI 0x3 x kk
  | .sneKk x kk => formatI 0x4 x kk
  | .seVy x y => formatR 0x5 x y 0x0
  | .ldKk x kk => formatI 0x6 x kk
  | .addKk x kk => formatI 0x7 x kk
  | .ldVy x y => formatR 0x8 x y 0x0
  | .orVy x y => formatR 0x8 x y 0x1
  | .andVy x y => formatR 0x8 x y 0x2
  | .xorVy x y => formatR 0x8 x y 0x3
  | .addVy x y => formatR 0x8 x y 0x4
  | .subVy x y => formatR 0x8 x y 0x5
  | .shr x y => formatR 0x8 x y 0x6
  | .subn x y => formatR 0x8 x y 0x7
  | .shl x y => formatR 0x8 x y 0xE
  | .sneVy x y => formatR 0x9 x y 0x0
  | .ldI nnn => formatA 0xA nnn
  | .jpV0 nnn => formatA 0xB nnn
  | .rnd x kk => formatI 0xC x kk
  | .drw x y n => formatD x y n
  | .skp x => formatX 0xE x 0x9E
  | .sknp x => formatX 0xE x 0xA1
  | .ldVxDt x => formatX 0xF x 0x07
  | .ldVxK x => formatX 0xF x 0x0A
  | .ldDtVx x => formatX 0xF x 0x15
  | .ldStVx x => formatX 0xF x 0x18
  | .addI x => formatX 0xF x 0x1E
  | .ldF x => formatX 0xF x 0x29
  | .ldB x => formatX 0xF x 0x33
  | .stRegs x => formatX 0xF x 0x55
  | .ldRegs x => formatX 0xF x 0x65
  | .unassigned op => op

/-- The two bytes of an instruction as memory holds them (R32, R45). -/
def encodeBytes (i : Instr) : List Byte := [hiByte (encode i), loByte (encode i)]

end Sys2Proof
end

