-- ==== Sys2Proof/Config.lean ====
section
/-!
DEFINITION. The implementation parameters of spec/00_scope.md R4, and the free values of the model.
-/

namespace Sys2Proof

/-- `MEM_SIZE`: addresses 0x000 to 0xFFF (R4, R10). -/
abbrev memSize : Nat := 4096

/-- `STACK_DEPTH` (R4, R15). -/
abbrev stackDepth : Nat := 16

/-- `FB_W` and `FB_H`, the columns and rows of the framebuffer (R4, R20). -/
abbrev fbWidth : Nat := 64
/-- See `fbWidth`. -/
abbrev fbHeight : Nat := 32

/-- `GLYPH_BYTES`, the bytes of one glyph (R4). -/
abbrev glyphBytes : Nat := 5

/-- `FONT_BASE`, the lowest memory address (R4, R36). -/
abbrev fontBase : Nat := 0

/-- The length of the font, 16 glyphs of `glyphBytes` (R4, R36). -/
abbrev fontLength : Nat := 80

/-- `FONT_DATA`, table M2 of spec/20_memory.md R36, one row per hexadecimal digit, top row of the
glyph first. -/
def fontTable : List Byte :=
  [0xF0, 0x90, 0x90, 0x90, 0xF0] ++
  [0x20, 0x60, 0x20, 0x20, 0x70] ++
  [0xF0, 0x10, 0xF0, 0x80, 0xF0] ++
  [0xF0, 0x10, 0xF0, 0x10, 0xF0] ++
  [0x90, 0x90, 0xF0, 0x10, 0x10] ++
  [0xF0, 0x80, 0xF0, 0x10, 0xF0] ++
  [0xF0, 0x80, 0xF0, 0x90, 0xF0] ++
  [0xF0, 0x10, 0x20, 0x40, 0x40] ++
  [0xF0, 0x90, 0xF0, 0x90, 0xF0] ++
  [0xF0, 0x90, 0xF0, 0x10, 0xF0] ++
  [0xF0, 0x90, 0xF0, 0x90, 0x90] ++
  [0xE0, 0x90, 0xE0, 0x90, 0xE0] ++
  [0xF0, 0x80, 0x80, 0x80, 0xF0] ++
  [0xE0, 0x90, 0x90, 0x90, 0xE0] ++
  [0xF0, 0x80, 0xF0, 0x80, 0xF0] ++
  [0xF0, 0x80, 0xF0, 0x80, 0x80]

/-- The parameters of R4 that the source does not give, the rows marked with a decision: each "a named
configuration field with the stated default". -/
structure Config where
  /-- `PROG_BASE`, the reserved-region boundary (R4; D1). -/
  progBase : Nat := 0x200
  /-- `FONT_PRESENT` (R4; D2). -/
  fontPresent : Bool := true
  /-- `FONT_DATA` (R4; D2). -/
  fontData : List Byte := fontTable
  /-- The highest value of `SP`: its range is 0 to here (R4, R16; D4). -/
  spMax : Nat := 16
  /-- `SPRITE_W`, the pixels of one sprite row (R4, R122; D9). -/
  spriteWidth : Nat := 8
  deriving DecidableEq, Repr

/-- The hardware with every default of R4: the machine of `Machine.State.reset` (log 1, log 2,
DESIGN CHOICE). -/
def Config.standard : Config := {}

/-- The top of the range of `SP` that the core is built with (D4; log 1). -/
abbrev spMax : Nat := Config.standard.spMax

/-- The `SPRITE_W` that the core is built with (D9; log 1). -/
abbrev spriteWidth : Nat := Config.standard.spriteWidth

/-- `PROG_MAX` = `MEM_SIZE` - `PROG_BASE` (R4). -/
def Config.progMax (c : Config) : Nat := memSize - c.progBase

/-- The contents of the font region after reset: `FONT_DATA`, or zeros without a font (R36). -/
def Config.fontImage (c : Config) : List Byte :=
  if c.fontPresent then c.fontData else List.replicate fontLength 0

/-- The constraints that D1 puts on `PROG_BASE`, the shape that R4 gives `FONT_DATA`, and the values
that D4 and D9 decide: the core of `Machine.step` is built with these two (log 1). -/
abbrev Config.Valid (c : Config) : Prop :=
  c.progBase % 2 = 0 ∧ c.progBase ≤ 0xFFE ∧ c.fontData.length = fontLength ∧
    (c.fontPresent = true → fontLength ≤ c.progBase) ∧
    c.spMax = Config.standard.spMax ∧ c.spriteWidth = Config.standard.spriteWidth

/-- FREE VALUE (log 3): the random byte that the source of R71 supplies to the k-th `RND` whose
byte the host does not say. It has no body, so nothing can be proved about its value: "nothing is
promised about its distribution or its relation to earlier values" (R71, U8). -/
opaque Config.freeRnd : Nat → Byte

end Sys2Proof
end

