-- ==== Sys2Proof/Machine/State.lean ====
section
/-!
DEFINITION. The state of the machine (spec/10_state.md), as plain data, and its value after reset
(R26, R180). Fields marked MODEL are no state of the spec: they carry the input and the output of a
cycle (R71).
-/

namespace Sys2Proof.Machine

/-- Why a step would end the model's run by a fault. There is no constructor: every fault of the
spec (R160) is taken as its own entry describes it, a next state with the latch `FAULT` written
(R168), so no step of this machine ends in a fault of the model. Safe and unsafe do not arise
(log 5). -/
inductive Fault where
  deriving DecidableEq, Repr

/-- Why a step would have no meaning. -/
inductive Refusal where
  /-- Raised by an arm of `exec` whose instruction has no meaning yet; safe. No arm raises it. -/
  | notModelled (mnemonic : String)
  deriving DecidableEq, Repr

/-- `FAULT.cause` (R22; table X1 of R160). The codes 5 to 7 "never occur" and have no constructor
(log 6). -/
inductive FaultCause where
  /-- Code 0: no fault recorded. -/
  | none
  /-- Code 1, StackFault.Overflow (R161). -/
  | stackOverflow
  /-- Code 2, StackFault.Underflow (R162). -/
  | stackUnderflow
  /-- Code 3, MemFault.Fetch (R163). -/
  | memFetch
  /-- Code 4, MemFault.Data (R164). -/
  | memData
  deriving DecidableEq, Repr

/-- The sticky fault latch `FAULT` (R22). -/
structure FaultLatch where
  /-- What was raised. -/
  cause : FaultCause
  /-- The `PC` of the faulting instruction. -/
  pc : Word
  /-- The offending address for the memory faults, else 0. -/
  addr : BitVec 17
  deriving DecidableEq, Repr

/-- `MEM` (R10): the cells that differ from what an unlisted address reads as
(`Memory.unlisted`), by rising address. -/
abbrev Memory := List Host.Cell

/-- `FB` (R20): 32 rows of 64 pixels; pixel (`px`, `py`) is element `px` of row `py`. -/
abbrev Framebuffer := Vector (Vector Bool 64) 32

/-- Everything the machine holds (R10 to R22; R24: "There is no other state"). -/
structure State where
  /-- `MEM` (R10). -/
  mem : Memory
  /-- `V[0]` to `V[15]` (R11); `V[15]` is `VF` (R12). -/
  v : Vector Byte 16
  /-- `I` (R13). -/
  i : Word
  /-- `PC` (R14). -/
  pc : Word
  /-- `STACK[0]` to `STACK[15]` (R15). -/
  stack : Vector Word 16
  /-- `SP`, the number of live entries, 0 to `spMax` = 16 (R16; log 6). -/
  sp : Fin (spMax + 1)
  /-- `KEYS[0]` to `KEYS[15]`, true when pressed (R17). -/
  keys : Vector Bool 16
  /-- `DT` (R18). -/
  dt : Byte
  /-- `ST` (R19). -/
  st : Byte
  /-- `FB` (R20). -/
  fb : Framebuffer
  /-- `DP`, draw-pending (R21). -/
  dp : Bool
  /-- `FAULT` (R22). -/
  fault : FaultLatch
  /-- MODEL (log 4): the output `beep` of the latest cycle (R66, R71). -/
  beep : Bool
  /-- MODEL (log 3): the byte the host holds on the input `rnd` (R71, R144), none when the host's
  byte is not said. -/
  rndPort : Option Byte
  /-- MODEL (log 3): how many free random bytes were drawn; it indexes `Config.freeRnd`. -/
  rndCount : Nat
  deriving DecidableEq, Repr

/-- The blank framebuffer: every pixel 0 (R26, R120). -/
def blankFramebuffer : Framebuffer := Vector.replicate 32 (Vector.replicate 64 false)

/-- The fault latch with no fault recorded (R22). -/
def FaultLatch.clear : FaultLatch := { cause := .none, pc := 0, addr := 0 }

/-- The machine right after reset, with the parameters of `Config.standard` (R26, R180). Memory
lists nothing: an unlisted address reads as its reset contents. -/
def State.reset : State where
  mem := []
  v := Vector.replicate 16 0
  i := 0
  pc := BitVec.ofNat 16 Config.standard.progBase
  stack := Vector.replicate 16 0
  sp := 0
  keys := Vector.replicate 16 false
  dt := 0
  st := 0
  fb := blankFramebuffer
  dp := true
  fault := FaultLatch.clear
  beep := false
  rndPort := none
  rndCount := 0

/-- What an instruction or a step answers. -/
abbrev Result := Host.Outcome State Fault Refusal

end Sys2Proof.Machine
end

