-- ==== Sys2Proof/Machine/Ops.lean ====
section
/-!
DEFINITION. The named operations over memory, registers, stack and framebuffer, fetching an
instruction, taking a fault, and the parts of a cycle around the instruction.
-/

namespace Sys2Proof.Machine

/-! ### Memory (spec/20_memory.md) -/

/-- What an address that memory does not list reads as: its contents after reset, `FONT_DATA` in
the font region and 0 elsewhere (R10, R36). -/
def Memory.unlisted (a : Nat) : Byte :=
  if fontBase ≤ a then Config.standard.fontImage.getD (a - fontBase) 0 else 0

/-- `MemRead(addr, 1)` (R35). Callers have checked `addr` ≤ 0xFFF (R34; log 10). -/
def Memory.read : Memory → Nat → Byte
  | [], a => Memory.unlisted a
  | (k, b) :: rest, a => if a = k then b else Memory.read rest a

/-- List the cell (`a`, `b`), or nothing where `b` is what `a` reads as unlisted. -/
def Memory.cell (a : Nat) (b : Byte) (rest : Memory) : Memory :=
  if b = Memory.unlisted a then rest else (a, b) :: rest

/-- `MemWrite(addr, 1, v)` (R35), keeping the canonical form. -/
def Memory.write : Memory → Nat → Byte → Memory
  | [], a, b => Memory.cell a b []
  | (k, c) :: rest, a, b =>
    if a < k then Memory.cell a b ((k, c) :: rest)
    else if a = k then Memory.cell a b rest
    else (k, c) :: Memory.write rest a b

/-- Single-byte stores at consecutive ascending addresses (R31, R37). -/
def Memory.writeBytes : Memory → Nat → List Byte → Memory
  | m, _, [] => m
  | m, a, b :: bs => Memory.writeBytes (Memory.write m a b) (a + 1) bs

/-- The canonical form of memory: addresses strictly rising, inside the address space, and no cell
equal to what its address reads as unlisted. -/
abbrev Memory.wf (m : Memory) : Prop :=
  m.Pairwise (fun c d => c.1 < d.1) ∧ ∀ c ∈ m, c.1 < memSize ∧ c.2 ≠ Memory.unlisted c.1

/-! ### Registers (spec/10_state.md) -/

/-- Read `V[r]` (R11). -/
def State.reg (s : State) (r : RegIdx) : Byte := s.v[r]

/-- `V[r] <- b` (R11). -/
def State.setReg (s : State) (r : RegIdx) (b : Byte) : State := { s with v := s.v.set r b }

/-- The register `VF` (R12). -/
def vf : RegIdx := 15

/-- `I <- w` (R13). -/
def State.setI (s : State) (w : Word) : State := { s with i := w }

/-- `pc <- w` (R14). -/
def State.setPc (s : State) (w : Word) : State := { s with pc := w }

/-- `DT <- b` (R18). -/
def State.setDt (s : State) (b : Byte) : State := { s with dt := b }

/-- `ST <- b` (R19). -/
def State.setSt (s : State) (b : Byte) : State := { s with st := b }

/-- Replace the contents of `MEM`. -/
def State.setMem (s : State) (m : Memory) : State := { s with mem := m }

/-- Replace the contents of `FB`. -/
def State.setFb (s : State) (f : Framebuffer) : State := { s with fb := f }

/-- `DP <- 1` (R21). -/
def State.setDrawPending (s : State) : State := { s with dp := true }

/-- Store consecutive bytes from an address up. -/
def State.store (s : State) (a : Nat) (bs : List Byte) : State := s.setMem (s.mem.writeBytes a bs)

/-! ### The program counter (table Y1 of R64) -/

/-- `pc <- PC + 2`. The sum is taken mod 65536 (D24). -/
def State.advance (s : State) : State := s.setPc (s.pc + 2)

/-- `pc <- PC + 4` if the condition holds, else `pc <- PC + 2`. -/
def State.skipIf (s : State) (c : Bool) : State := s.setPc (if c then s.pc + 4 else s.pc + 2)

/-! ### The stack (R15, R16; D4) -/

/-- `STACK[SP] <- w; SP <- SP + 1`, where an entry is free. -/
def State.push (s : State) (w : Word) (free : s.sp.val < spMax) : State :=
  { s with
    stack := s.stack.set s.sp.val w (Nat.lt_of_lt_of_le free (by decide : spMax ≤ stackDepth))
    sp := ⟨s.sp.val + 1, Nat.succ_lt_succ free⟩ }

/-- `STACK[SP - 1]`, the top entry (where `SP` > 0). -/
def State.top (s : State) : Word :=
  s.stack[s.sp.val - 1]'(Nat.lt_of_le_of_lt (Nat.sub_le_sub_right (Nat.le_of_lt_succ s.sp.isLt) 1)
    (by decide))

/-- `SP <- SP - 1`; the entry keeps its value (R80). -/
def State.pop (s : State) : State :=
  { s with sp := ⟨s.sp.val - 1, Nat.lt_of_le_of_lt (Nat.sub_le _ _) s.sp.isLt⟩ }

/-! ### The keys (R17) -/

/-- `KEYS[k]`. -/
def State.key (s : State) (k : KeyIdx) : Bool := s.keys[k]

/-- The smallest k with `KEYS[k]` = 1, or none where no key is pressed (R132). -/
def State.lowestKey (s : State) : Option Nat := s.keys.toList.findIdx? id

/-! ### The framebuffer (R20, R122) -/

/-- `FB[px, py]`; off the grid there is no pixel, and it reads as clear. -/
def Framebuffer.pixel (f : Framebuffer) (px py : Nat) : Bool :=
  if h : px < fbWidth ∧ py < fbHeight then (f[py]'h.2)[px]'h.1 else false

/-- `FB[px, py] <- FB[px, py] ^ 1`; off the grid nothing changes. -/
def Framebuffer.flip (f : Framebuffer) (px py : Nat) : Framebuffer :=
  if h : px < fbWidth ∧ py < fbHeight then
    f.set py ((f[py]'h.2).set px (!((f[py]'h.2)[px]'h.1)) h.1) h.2
  else f

/-- One sprite bit at integer coordinates: a 1 that falls on the grid collides with a set pixel and
flips it; anything else is skipped (R121, R122). The pair is the framebuffer and `collision`. -/
def drawPixel (px py : Nat) (bit : Bool) (acc : Framebuffer × Bool) : Framebuffer × Bool :=
  if bit && px ≤ 63 && py ≤ 31 then
    (acc.1.flip px py, acc.2 || acc.1.pixel px py)
  else acc

/-- One sprite row: the most significant bit, bit 7, is column `vx`, bit 0 is column `vx + 7`
(R122; `spriteWidth` = 8). -/
def drawRow (b : Byte) (vx py : Nat) (acc : Framebuffer × Bool) : Framebuffer × Bool :=
  (List.range spriteWidth).foldl
    (fun acc c => drawPixel (vx + c) py (b.getLsbD (spriteWidth - 1 - c)) acc) acc

/-- `n` sprite rows from memory at `base`, drawn from row `vy` down (R121). -/
def drawSprite (m : Memory) (base vx vy n : Nat) (f : Framebuffer) : Framebuffer × Bool :=
  (List.range n).foldl (fun acc r => drawRow (m.read (base + r)) vx (vy + r) acc) (f, false)

/-! ### Faults (spec/60_exceptions.md) -/

/-- `raise F(info)` (R168, R69): `FAULT` takes the cause, the `PC` of the instruction and the
address; no other state changes, and the cycle's `beep` is 0. -/
def State.raise (s : State) (c : FaultCause) (addr : Nat) : State :=
  { s with fault := { cause := c, pc := s.pc, addr := BitVec.ofNat 17 addr }, beep := false }

/-- The lowest address above 0xFFF among accesses that start at `base` and end above 0xFFF (R34). -/
def faultAddr (base : Nat) : Nat := max base 0x1000

/-- The core is halted (R61). -/
def State.halted (s : State) : Bool := s.fault.cause != .none

/-- Leaving the halt: the only exit is RESET, which clears `FAULT` (R169). -/
def State.clearFault (s : State) : State := { s with fault := FaultLatch.clear }

/-! ### The parts of a cycle (spec/40_cycle.md R60) -/

/-- A cycle that changes nothing, waiting (R67) or halted (R61): its `beep` is 0. -/
def State.idle (s : State) : State := { s with beep := false }

/-- The fetch would access an address above 0xFFF (R62). -/
def State.fetchFaults (s : State) : Bool := 0xFFE < s.pc.toNat

/-- The fetched word: two bytes at `PC`, big-endian (R62). -/
def State.fetchWord (s : State) : Word :=
  wordOfBytes (s.mem.read s.pc.toNat) (s.mem.read (s.pc.toNat + 1))

/-- The fetched and decoded instruction (R62, R63). -/
def State.fetchInstr (s : State) : Instr := decode s.fetchWord

/-- One count of a timer: 1 less, and 0 stays 0 (R65). -/
def countDown (b : Byte) : Byte := if b = 0 then 0 else b - 1

/-- The timer tick and the `beep` of a completed cycle (R65, R66). -/
def State.tick (s : State) : State :=
  { s with
    dt := countDown s.dt
    st := countDown s.st
    beep := s.st != 0 && countDown s.st == 1 }

/-- `LD Vx, K` with no key pressed waits (R67, R132); no other instruction does. -/
def waits (i : Instr) (s : State) : Bool :=
  match i with
  | .ldVxK _ => s.lowestKey.isNone
  | _ => false

/-- The end of a cycle that executed `i` from `s` and came to `t`: a faulted cycle (R69) and a
waiting one (R67) end there, a completed one ticks the timers (R65). -/
def finishCycle (i : Instr) (s t : State) : State :=
  if t.halted || waits i s then t else t.tick

/-! ### The random input (R71, R101) -/

/-- The byte `rnd` of the cycle: what the host holds on the port, else a free value (log 3). -/
def State.rndByte (s : State) : Byte := s.rndPort.getD (Config.freeRnd s.rndCount)

/-- The byte was drawn: the next draw is a fresh one (R71: "supplied fresh for each cycle"). -/
def State.rndDrawn (s : State) : State := { s with rndCount := s.rndCount + 1 }

/-- Put the bytes of an instruction at an address (R32). -/
def State.placeWord (s : State) (a : Nat) (op : Word) : State :=
  s.store a [hiByte op, loByte op]

/-- An address from which an instruction can be fetched: the `PC`, or `PROG_BASE` where the `PC` is
above 0xFFE (log 8). -/
def State.fetchablePc (s : State) : Word :=
  if s.fetchFaults then BitVec.ofNat 16 Config.standard.progBase else s.pc

end Sys2Proof.Machine
end

