-- ==== Sys2Proof/Machine/Flags.lean ====
section
/-!
DEFINITION. The values `VF` receives (table F1 of spec/42_alu.md R103, R102; R111; R121), and the
order of the two writes of a flag-writing instruction (R70).
-/

namespace Sys2Proof.Machine

/-- A flag as the value 0 or 1 of `VF` (R12). -/
def flagByte (b : Bool) : Byte := if b then 1 else 0

/-- The 9-bit sum of two bytes (R96). -/
def sum9 (a b : Byte) : BitVec 9 := a.setWidth 9 + b.setWidth 9

/-- Carry out of bit 7: 1 if the sum exceeds 255 (R96). -/
def carryFlag (a b : Byte) : Byte := flagByte ((sum9 a b).getLsbD 8)

/-- Not-borrow of `a - b`: 1 if `a >= b`, equality included (R97, R99, R102). -/
def notBorrowFlag (a b : Byte) : Byte := flagByte (b ≤ a)

/-- The bit a right shift moves out (R98). -/
def shrFlag (a : Byte) : Byte := a &&& 1

/-- The bit a left shift moves out (R100). -/
def shlFlag (a : Byte) : Byte := (a >>> 7) &&& 1

/-- The 17-bit sum of `I` and a register (R111). -/
def indexSum (i : Word) (a : Byte) : BitVec 17 := i.setWidth 17 + a.setWidth 17

/-- 1 when the un-truncated sum is above 0xFFF (R111). -/
def indexFlag (i : Word) (a : Byte) : Byte := flagByte (0xFFF#17 < indexSum i a)

/-- The collision bit of `DRW` (R121). -/
def collisionFlag (collision : Bool) : Byte := flagByte collision

/-- The two writes of a flag-writing ALU instruction: the flag first, the result second, so that
with `x` = F the result survives (R70, R103). -/
def State.setFlagThenReg (s : State) (flag : Byte) (x : RegIdx) (result : Byte) : State :=
  (s.setReg vf flag).setReg x result

end Sys2Proof.Machine
end

