-- ==== Sys2Proof/Machine/Alu.lean ====
section
/-!
DEFINITION. Register load, arithmetic, logic, shift and random instructions (spec/42_alu.md R90 to
R101; the laws R102, R103).
-/

namespace Sys2Proof.Machine

/-- LD Vx, kk (R90). -/
def execLdKk (x : RegIdx) (kk : Byte) (s : State) : Result := .next (s.setReg x kk).advance

/-- ADD Vx, kk (R91): no flag. -/
def execAddKk (x : RegIdx) (kk : Byte) (s : State) : Result :=
  .next (s.setReg x (s.reg x + kk)).advance

/-- LD Vx, Vy (R92). -/
def execLdVy (x y : RegIdx) (s : State) : Result := .next (s.setReg x (s.reg y)).advance

/-- OR Vx, Vy (R93). -/
def execOrVy (x y : RegIdx) (s : State) : Result := .next (s.setReg x (s.reg x ||| s.reg y)).advance

/-- AND Vx, Vy (R94). -/
def execAndVy (x y : RegIdx) (s : State) : Result :=
  .next (s.setReg x (s.reg x &&& s.reg y)).advance

/-- XOR Vx, Vy (R95). -/
def execXorVy (x y : RegIdx) (s : State) : Result :=
  .next (s.setReg x (s.reg x ^^^ s.reg y)).advance

/-- ADD Vx, Vy (R96). -/
def execAddVy (x y : RegIdx) (s : State) : Result :=
  .next (s.setFlagThenReg (carryFlag (s.reg x) (s.reg y)) x
    ((sum9 (s.reg x) (s.reg y)).setWidth 8)).advance

/-- SUB Vx, Vy (R97). -/
def execSubVy (x y : RegIdx) (s : State) : Result :=
  .next (s.setFlagThenReg (notBorrowFlag (s.reg x) (s.reg y)) x (s.reg x - s.reg y)).advance

/-- SHR Vx (R98): `V[y]` is neither read nor written. -/
def execShr (x _y : RegIdx) (s : State) : Result :=
  .next (s.setFlagThenReg (shrFlag (s.reg x)) x (s.reg x >>> 1)).advance

/-- SUBN Vx, Vy (R99). -/
def execSubn (x y : RegIdx) (s : State) : Result :=
  .next (s.setFlagThenReg (notBorrowFlag (s.reg y) (s.reg x)) x (s.reg y - s.reg x)).advance

/-- SHL Vx (R100): the field `y` is ignored, as in `execShr`. -/
def execShl (x _y : RegIdx) (s : State) : Result :=
  .next (s.setFlagThenReg (shlFlag (s.reg x)) x (s.reg x <<< 1)).advance

/-- RND Vx, kk (R101). -/
def execRnd (x : RegIdx) (kk : Byte) (s : State) : Result :=
  .next (s.setReg x (s.rndByte &&& kk)).rndDrawn.advance

end Sys2Proof.Machine
end

