-- ==== Sys2Proof/Machine/Operands.lean ====
section
/-!
DEFINITION. The operand forms: immediates (spec/30_encoding.md R48), key and digit indices (R130,
R112), and the one data addressing mode, index plus constant offset (spec/43_index_memory.md R116).
-/

namespace Sys2Proof.Machine

/-- `zext_16(nnn)` (R48). -/
def addrOf (nnn : BitVec 12) : Word := nnn.setWidth 16

/-- `zext_16(nnn) + zext_16(V[0])`, not reduced to 12 bits (R87, D24). -/
def indexedTarget (nnn : BitVec 12) (v0 : Byte) : Word := addrOf nnn + v0.setWidth 16

/-- The low four bits of a register, as a key index (R130; D10). -/
def keyOf (b : Byte) : KeyIdx := (b.extractLsb' 0 4).toFin

/-- The low four bits of a register, as a digit (R112; D11). -/
def digitOf (b : Byte) : Nat := (b.extractLsb' 0 4).toNat

/-- `FONT_BASE + GLYPH_BYTES * d` (R112). -/
def glyphAddr (d : Nat) : Word := BitVec.ofNat 16 (fontBase + glyphBytes * d)

/-- The effective address `I + k`, an unbounded integer (R116). -/
def State.ea (s : State) (k : Nat) : Nat := s.i.toNat + k

/-- `len` bytes from `I` up are all inside memory (R34, R116). -/
def State.inRange (s : State) (len : Nat) : Bool := len == 0 || s.ea (len - 1) ≤ 0xFFF

/-- Run `f` where the `len` bytes from `I` up are in range; otherwise take MemFault.Data before any
effect (R34, R116, R164). -/
def State.withRange (s : State) (len : Nat) (f : State → State) : State :=
  if s.inRange len then f s else s.raise .memData (faultAddr s.i.toNat)

/-- The decimal digits of a byte: hundreds, tens, ones (R113). -/
def bcdDigits (b : Byte) : List Byte :=
  [BitVec.ofNat 8 (b.toNat / 100), BitVec.ofNat 8 (b.toNat / 10 % 10), BitVec.ofNat 8 (b.toNat % 10)]

/-- `V[0]` to `V[x]`, in order (R114). -/
def State.regsUpTo (s : State) (x : RegIdx) : List Byte := s.v.toList.take (x.val + 1)

/-- `V[k] <- MemRead(I + k, 1)` for k in 0 .. `x`, ascending (R115). -/
def State.loadRegsUpTo (s : State) (x : RegIdx) : State :=
  { s with
    v := (List.range (x.val + 1)).foldl (fun v k => v.setIfInBounds k (s.mem.read (s.ea k))) s.v }

end Sys2Proof.Machine
end

