-- ==== Sys2Proof/Machine/ControlFlow.lean ====
section
/-!
DEFINITION. Control transfer instructions (spec/41_control_flow.md R80 to R87), and the unassigned
words (spec/40_cycle.md R68).
-/

namespace Sys2Proof.Machine

/-- RET (R80): `SP` = 0 takes StackFault.Underflow (R162). -/
def execRet (s : State) : Result :=
  if s.sp.val = 0 then .next (s.raise .stackUnderflow 0)
  else .next (s.pop.setPc s.top)

/-- JP nnn (R81). -/
def execJp (nnn : BitVec 12) (s : State) : Result := .next (s.setPc (addrOf nnn))

/-- CALL nnn (R82): pushes `PC` + 2; `SP` = 16 takes StackFault.Overflow (R161). -/
def execCall (nnn : BitVec 12) (s : State) : Result :=
  if free : s.sp.val < spMax then .next ((s.push (s.pc + 2) free).setPc (addrOf nnn))
  else .next (s.raise .stackOverflow 0)

/-- SE Vx, kk (R83). -/
def execSeKk (x : RegIdx) (kk : Byte) (s : State) : Result := .next (s.skipIf (s.reg x == kk))

/-- SNE Vx, kk (R84). -/
def execSneKk (x : RegIdx) (kk : Byte) (s : State) : Result := .next (s.skipIf (s.reg x != kk))

/-- SE Vx, Vy (R85). -/
def execSeVy (x y : RegIdx) (s : State) : Result := .next (s.skipIf (s.reg x == s.reg y))

/-- SNE Vx, Vy (R86). -/
def execSneVy (x y : RegIdx) (s : State) : Result := .next (s.skipIf (s.reg x != s.reg y))

/-- JP V0, nnn (R87): no +2 is added. -/
def execJpV0 (nnn : BitVec 12) (s : State) : Result := .next (s.setPc (indexedTarget nnn (s.reg 0)))

/-- UNASSIGNED (R68): every field of the word is ignored. -/
def execUnassigned (_op : Word) (s : State) : Result := .next s.advance

end Sys2Proof.Machine
end

