-- ==== Sys2Proof/Machine/Display.lean ====
section
/-!
DEFINITION. Framebuffer instructions (spec/44_display.md R120 to R122).
-/

namespace Sys2Proof.Machine

/-- CLS (R120): `DP` is set even when the framebuffer was clear (C3). -/
def execCls (s : State) : Result := .next (s.setFb blankFramebuffer).setDrawPending.advance

/-- DRW Vx, Vy, n (R121): all `n` bytes are range-checked, clipped or not, before any effect. -/
def execDrw (x y : RegIdx) (n : BitVec 4) (s : State) : Result :=
  .next (s.withRange n.toNat fun s =>
    let drawn := drawSprite s.mem (s.ea 0) (s.reg x).toNat (s.reg y).toNat n.toNat s.fb
    ((s.setFb drawn.1).setReg vf (collisionFlag drawn.2)).setDrawPending.advance)

end Sys2Proof.Machine
end

