-- ==== Sys2Proof/Machine/IndexMemory.lean ====
section
/-!
DEFINITION. Index register and memory transfer instructions (spec/43_index_memory.md R110 to R116).
`I` keeps its value in the three transfers (R116).
-/

namespace Sys2Proof.Machine

/-- LD I, nnn (R110). -/
def execLdI (nnn : BitVec 12) (s : State) : Result := .next (s.setI (addrOf nnn)).advance

/-- ADD I, Vx (R111): `I` first, then the flag; the addend is latched (R70). -/
def execAddI (x : RegIdx) (s : State) : Result :=
  .next ((s.setI ((indexSum s.i (s.reg x)).setWidth 16)).setReg vf
    (indexFlag s.i (s.reg x))).advance

/-- LD F, Vx (R112). -/
def execLdF (x : RegIdx) (s : State) : Result :=
  .next (s.setI (glyphAddr (digitOf (s.reg x)))).advance

/-- LD B, Vx (R113). -/
def execLdB (x : RegIdx) (s : State) : Result :=
  .next (s.withRange 3 fun s => (s.store (s.ea 0) (bcdDigits (s.reg x))).advance)

/-- LD [I], Vx (R114). -/
def execStRegs (x : RegIdx) (s : State) : Result :=
  .next (s.withRange (x.val + 1) fun s => (s.store (s.ea 0) (s.regsUpTo x)).advance)

/-- LD Vx, [I] (R115). -/
def execLdRegs (x : RegIdx) (s : State) : Result :=
  .next (s.withRange (x.val + 1) fun s => (s.loadRegsUpTo x).advance)

end Sys2Proof.Machine
end

