-- ==== Sys2Proof/Machine/KeysTimers.lean ====
section
/-!
DEFINITION. Key and timer instructions (spec/45_keys_timers.md R130 to R135). The tick that follows
every completed instruction is `finishCycle`'s (R65).
-/

namespace Sys2Proof.Machine

/-- SKP Vx (R130). -/
def execSkp (x : RegIdx) (s : State) : Result := .next (s.skipIf (s.key (keyOf (s.reg x))))

/-- SKNP Vx (R131). -/
def execSknp (x : RegIdx) (s : State) : Result := .next (s.skipIf (!s.key (keyOf (s.reg x))))

/-- LD Vx, K (R132): with no key pressed the cycle is waiting and changes nothing (R67). -/
def execLdVxK (x : RegIdx) (s : State) : Result :=
  match s.lowestKey with
  | none => .next s.idle
  | some k => .next (s.setReg x (BitVec.ofNat 8 k)).advance

/-- LD Vx, DT (R133): the value before this cycle's tick. -/
def execLdVxDt (x : RegIdx) (s : State) : Result := .next (s.setReg x s.dt).advance

/-- LD DT, Vx (R134). -/
def execLdDtVx (x : RegIdx) (s : State) : Result := .next (s.setDt (s.reg x)).advance

/-- LD ST, Vx (R135). -/
def execLdStVx (x : RegIdx) (s : State) : Result := .next (s.setSt (s.reg x)).advance

end Sys2Proof.Machine
end

