-- ==== Sys2Proof/Machine/Step.lean ====
section
/-!
DEFINITION. `step`: one cycle of the core (spec/40_cycle.md R60).
-/

namespace Sys2Proof.Machine

/-- One cycle: a halted core changes nothing (R61); a `PC` above 0xFFE takes MemFault.Fetch (R62,
R163); otherwise the fetched instruction is executed and the cycle is finished. -/
def step (s : State) : Host.Outcome State Fault Refusal :=
  if s.halted then .next s.idle
  else if s.fetchFaults then .next (s.raise .memFetch (faultAddr s.pc.toNat))
  else
    match exec s.fetchInstr s with
    | .next t => .next (finishCycle s.fetchInstr s t)
    | .fault r => .fault r
    | .refused r => .refused r

/-- `s` with the word of a row stored where `step` fetches its next instruction. The fetch needs a
core that is not halted and a `PC` up to 0xFFE, so these are seen to as well (log 8). -/
def State.withFetchWord (s : State) (nbits w : Nat) : State :=
  ((s.setPc s.fetchablePc).clearFault).placeWord s.fetchablePc.toNat
    (BitVec.ofNat 16 (w % 2 ^ nbits))

end Sys2Proof.Machine
end

