-- ==== Sys2Proof/Machine/Assembler.lean ====
section
/-!
DEFINITION. The assembler notation of spec/30_encoding.md R53, at the level of mnemonics and
operands: which word a line means, which numbers are rejected, where labels and `DB` bytes stand.
How the characters of a line are split into these parts is not modelled (log 14).
-/

namespace Sys2Proof.Machine

/-- The mnemonics of the syntax column of table E3. -/
inductive AsmMnemonic where
  | cls | ret | jp | call | se | sne | ld | add | or_ | and_ | xor_ | sub | shr | subn | shl | rnd
  | drw | skp | sknp
  deriving DecidableEq, Repr

/-- An operand: a register, a number, the address of a label, or one of the fixed operand words
`I`, `DT`, `ST`, `K`, `F`, `B`, `[I]`. -/
inductive AsmOperand where
  | reg (r : RegIdx)
  | num (value : Nat)
  | label (name : Nat)
  | i | dt | st | k | f | b | atI
  deriving DecidableEq, Repr

/-- An unsigned number that must fit `w` bits: one that does not fit is rejected, never truncated. -/
def asmNum (w value : Nat) : Option (BitVec w) :=
  if value < 2 ^ w then some (BitVec.ofNat w value) else none

/-- The instruction of a line whose labels are already numbers (syntax column of table E3). `SHR Vx`
and `SHL Vx` assemble as `y` = 0; the two-operand spelling sets the field. -/
def asmInstr (m : AsmMnemonic) (operands : List AsmOperand) : Option Instr :=
  match m, operands with
  | .cls, [] => some .cls
  | .ret, [] => some .ret
  | .jp, [.num a] => (asmNum 12 a).map .jp
  | .jp, [.reg 0, .num a] => (asmNum 12 a).map .jpV0
  | .call, [.num a] => (asmNum 12 a).map .call
  | .se, [.reg x, .num a] => (asmNum 8 a).map (.seKk x)
  | .se, [.reg x, .reg y] => some (.seVy x y)
  | .sne, [.reg x, .num a] => (asmNum 8 a).map (.sneKk x)
  | .sne, [.reg x, .reg y] => some (.sneVy x y)
  | .ld, [.reg x, .num a] => (asmNum 8 a).map (.ldKk x)
  | .ld, [.reg x, .reg y] => some (.ldVy x y)
  | .ld, [.i, .num a] => (asmNum 12 a).map .ldI
  | .ld, [.reg x, .dt] => some (.ldVxDt x)
  | .ld, [.reg x, .k] => some (.ldVxK x)
  | .ld, [.dt, .reg x] => some (.ldDtVx x)
  | .ld, [.st, .reg x] => some (.ldStVx x)
  | .ld, [.f, .reg x] => some (.ldF x)
  | .ld, [.b, .reg x] => some (.ldB x)
  | .ld, [.atI, .reg x] => some (.stRegs x)
  | .ld, [.reg x, .atI] => some (.ldRegs x)
  | .add, [.reg x, .num a] => (asmNum 8 a).map (.addKk x)
  | .add, [.reg x, .reg y] => some (.addVy x y)
  | .add, [.i, .reg x] => some (.addI x)
  | .or_, [.reg x, .reg y] => some (.orVy x y)
  | .and_, [.reg x, .reg y] => some (.andVy x y)
  | .xor_, [.reg x, .reg y] => some (.xorVy x y)
  | .sub, [.reg x, .reg y] => some (.subVy x y)
  | .shr, [.reg x] => some (.shr x 0)
  | .shr, [.reg x, .reg y] => some (.shr x y)
  | .subn, [.reg x, .reg y] => some (.subn x y)
  | .shl, [.reg x] => some (.shl x 0)
  | .shl, [.reg x, .reg y] => some (.shl x y)
  | .rnd, [.reg x, .num a] => (asmNum 8 a).map (.rnd x)
  | .drw, [.reg x, .reg y, .num a] => (asmNum 4 a).map (.drw x y)
  | .skp, [.reg x] => some (.skp x)
  | .sknp, [.reg x] => some (.sknp x)
  | _, _ => none

/-- The line that R53 and table E3 write for an instruction; none for an unassigned word, which has
no mnemonic. -/
def asmLine : Instr → Option (AsmMnemonic × List AsmOperand)
  | .cls => some (.cls, [])
  | .ret => some (.ret, [])
  | .jp a => some (.jp, [.num a.toNat])
  | .call a => some (.call, [.num a.toNat])
  | .seKk x kk => some (.se, [.reg x, .num kk.toNat])
  | .sneKk x kk => some (.sne, [.reg x, .num kk.toNat])
  | .seVy x y => some (.se, [.reg x, .reg y])
  | .ldKk x kk => some (.ld, [.reg x, .num kk.toNat])
  | .addKk x kk => some (.add, [.reg x, .num kk.toNat])
  | .ldVy x y => some (.ld, [.reg x, .reg y])
  | .orVy x y => some (.or_, [.reg x, .reg y])
  | .andVy x y => some (.and_, [.reg x, .reg y])
  | .xorVy x y => some (.xor_, [.reg x, .reg y])
  | .addVy x y => some (.add, [.reg x, .reg y])
  | .subVy x y => some (.sub, [.reg x, .reg y])
  | .shr x y => some (.shr, [.reg x, .reg y])
  | .subn x y => some (.subn, [.reg x, .reg y])
  | .shl x y => some (.shl, [.reg x, .reg y])
  | .sneVy x y => some (.sne, [.reg x, .reg y])
  | .ldI a => some (.ld, [.i, .num a.toNat])
  | .jpV0 a => some (.jp, [.reg 0, .num a.toNat])
  | .rnd x kk => some (.rnd, [.reg x, .num kk.toNat])
  | .drw x y n => some (.drw, [.reg x, .reg y, .num n.toNat])
  | .skp x => some (.skp, [.reg x])
  | .sknp x => some (.sknp, [.reg x])
  | .ldVxDt x => some (.ld, [.reg x, .dt])
  | .ldVxK x => some (.ld, [.reg x, .k])
  | .ldDtVx x => some (.ld, [.dt, .reg x])
  | .ldStVx x => some (.ld, [.st, .reg x])
  | .addI x => some (.add, [.i, .reg x])
  | .ldF x => some (.ld, [.f, .reg x])
  | .ldB x => some (.ld, [.b, .reg x])
  | .stRegs x => some (.ld, [.atI, .reg x])
  | .ldRegs x => some (.ld, [.reg x, .atI])
  | .unassigned _ => none

/-- An item of a source text: a label, an instruction line, or `DB b0, b1, ...`. -/
inductive AsmItem where
  | label (name : Nat)
  | line (m : AsmMnemonic) (operands : List AsmOperand)
  | db (bytes : List Nat)
  deriving DecidableEq, Repr

/-- How many bytes an item places. -/
def AsmItem.size : AsmItem → Nat
  | .label _ => 0
  | .line _ _ => 2
  | .db bytes => bytes.length

/-- A label "stands for the address of the next byte", counting from `at_` (the first definition
where a name has several). -/
def asmLabelAddr (name : Nat) : List AsmItem → Nat → Option Nat
  | [], _ => none
  | .label n :: rest, at_ => if n = name then some at_ else asmLabelAddr name rest at_
  | .line _ _ :: rest, at_ => asmLabelAddr name rest (at_ + 2)
  | .db bytes :: rest, at_ => asmLabelAddr name rest (at_ + bytes.length)

/-- Put the address of a label in its place. -/
def asmResolve (items : List AsmItem) (start : Nat) (o : AsmOperand) : Option AsmOperand :=
  match o with
  | .label n => (asmLabelAddr n items start).map .num
  | o => some o

/-- The bytes of one item: a line is one 16-bit word, high byte first. -/
def asmItem (items : List AsmItem) (start : Nat) : AsmItem → Option (List Byte)
  | .label _ => some []
  | .line m operands => do
    let resolved ← operands.mapM (asmResolve items start)
    let ins ← asmInstr m resolved
    pure (encodeBytes ins)
  | .db bytes => bytes.mapM (asmNum 8)

/-- The image of a source text; assembly starts at `PROG_BASE`. -/
def assemble (c : Config) (items : List AsmItem) : Option (List Byte) :=
  (items.mapM (asmItem items c.progBase)).map List.flatten

end Sys2Proof.Machine
end

