-- ==== Sys2Proof/Machine/HostOps.lean ====
section
/-!
DEFINITION. The second agent: the host's operations (spec/47_host_operations.md R140 to R148), the
status outputs (spec/10_state.md R23) and a run of both agents (R140). The parameters of R4 act only
here, in RESET and LOAD (log 1).
-/

namespace Sys2Proof.Machine

/-! ### Outputs that are functions of the state (R23, R148) -/

/-- `dt_zero` (R23). -/
def State.dtZero (s : State) : Bool := s.dt == 0
/-- `st_zero` (R23). -/
def State.stZero (s : State) : Bool := s.st == 0
/-- `snd_active` (R23). -/
def State.sndActive (s : State) : Bool := s.st != 0

/-- The code of a fault cause, 3 bits (R22, table X1). -/
def FaultCause.code : FaultCause → BitVec 3
  | .none => 0
  | .stackOverflow => 1
  | .stackUnderflow => 2
  | .memFetch => 3
  | .memData => 4

/-- What STATUS returns (R148). -/
structure Status where
  /-- `FAULT.cause` as its code. -/
  cause : BitVec 3
  /-- `FAULT.pc`. -/
  pc : Word
  /-- `FAULT.addr`. -/
  addr : BitVec 17
  /-- `DT`. -/
  dt : Byte
  /-- `ST`. -/
  st : Byte
  /-- `dt_zero`. -/
  dtZero : Bool
  /-- `st_zero`. -/
  stZero : Bool
  /-- `snd_active`. -/
  sndActive : Bool
  deriving DecidableEq, Repr

/-- STATUS (R148): reads the fault latch, the timers and the derived outputs; changes nothing. -/
def State.status (s : State) : Status where
  cause := s.fault.cause.code
  pc := s.fault.pc
  addr := s.fault.addr
  dt := s.dt
  st := s.st
  dtZero := s.dtZero
  stZero := s.stZero
  sndActive := s.sndActive

/-! ### Operations -/

/-- The contents of `MEM` after RESET of a machine with the parameters `c`: zero, and the font
where there is one (R180). The cells listed are those where it differs from the standard machine. -/
def resetMemory (c : Config) : Memory := Memory.writeBytes [] fontBase c.fontImage

/-- RESET (R141, R180). The count of free random bytes is the model's own and goes on, so that
draws after a reset are fresh (log 3); the rest does not depend on the state before. -/
def hostReset (c : Config) (s : State) : State :=
  { State.reset with
    mem := resetMemory c
    pc := BitVec.ofNat 16 c.progBase
    rndCount := s.rndCount }

/-- The error result of LOAD (R142, R165). It is no fault of the core. -/
inductive LoadError where
  /-- The image is longer than `PROG_MAX`. -/
  | capacityExceeded
  deriving DecidableEq, Repr

/-- LOAD(bytes) (R142): the length is tested before any byte is copied (D17). -/
def hostLoad (c : Config) (bytes : List Byte) (s : State) : Except LoadError State :=
  if bytes.length ≤ c.progMax then .ok (s.store c.progBase bytes) else .error .capacityExceeded

/-- KEYSET(k, pressed) (R143). -/
def hostKeySet (k : KeyIdx) (pressed : Bool) (s : State) : State :=
  { s with keys := s.keys.set k pressed }

/-- FBREAD (R145): the value of every pixel. -/
def hostFbRead (s : State) : Framebuffer := s.fb

/-- The linear order of the export: pixel (`px`, `py`) has index `py * 64 + px` (R145, D19). -/
def hostFbLinear (s : State) (index : Nat) : Bool :=
  s.fb.pixel (index % fbWidth) (index / fbWidth)

/-- DRAWTAKE (R146): returns `DP` and clears it. -/
def hostDrawTake (s : State) : Bool × State := (s.dp, { s with dp := false })

/-- Hold a byte on the input `rnd`, or let it go. -/
def State.setRndPort (s : State) (b : Option Byte) : State := { s with rndPort := b }

/-- STEP(rnd) (R144): one cycle with the host's byte on the input `rnd`. The output is `beep`. -/
def hostStep (rnd : Byte) (s : State) : Result :=
  match step (s.setRndPort (some rnd)) with
  | .next t => .next (t.setRndPort none)
  | .fault r => .fault r
  | .refused r => .refused r

/-! ### Runs of both agents (R140) -/

/-- One step of the host, with its input. -/
inductive HostAction where
  /-- RESET (R141). -/
  | reset
  /-- LOAD (R142). -/
  | load (bytes : List Byte)
  /-- KEYSET (R143). -/
  | keySet (k : KeyIdx) (pressed : Bool)
  /-- STEP (R144). -/
  | step (rnd : Byte)
  /-- FBREAD (R145). -/
  | fbRead
  /-- DRAWTAKE (R146). -/
  | drawTake
  /-- STATUS (R148). -/
  | status
  deriving DecidableEq, Repr

/-- What an operation returns to the host. -/
inductive HostReply where
  /-- RESET, KEYSET and a LOAD that succeeds return nothing. -/
  | done
  /-- LOAD failed and changed nothing (R142). -/
  | loadFailed (e : LoadError)
  /-- The output `beep` of the cycle (R144). -/
  | beep (b : Bool)
  /-- The grid (R145). -/
  | grid (f : Framebuffer)
  /-- The draw-pending flag as it was (R146). -/
  | drawPending (b : Bool)
  /-- The status (R148). -/
  | status (st : Status)
  deriving DecidableEq, Repr

/-- One host operation: the reply and the state after it. -/
def hostAct (c : Config) (a : HostAction) (s : State) :
    Host.Outcome (HostReply × State) Fault Refusal :=
  match a with
  | .reset => .next (.done, hostReset c s)
  | .load bytes =>
    match hostLoad c bytes s with
    | .ok t => .next (.done, t)
    | .error e => .next (.loadFailed e, s)
  | .keySet k pressed => .next (.done, hostKeySet k pressed s)
  | .step rnd =>
    match hostStep rnd s with
    | .next t => .next (.beep t.beep, t)
    | .fault r => .fault r
    | .refused r => .refused r
  | .fbRead => .next (.grid (hostFbRead s), s)
  | .drawTake => .next (.drawPending (hostDrawTake s).1, (hostDrawTake s).2)
  | .status => .next (.status s.status, s)

/-- A run of the machine: a sequence of host operations, one at a time (R140). -/
def hostRun (c : Config) : List HostAction → State → Result
  | [], s => .next s
  | a :: rest, s =>
    match hostAct c a s with
    | .next (_, t) => hostRun c rest t
    | .fault r => .fault r
    | .refused r => .refused r

/-! ### The outputs of the informative port list (R150, table H2) -/

/-- The output ports of table H2 that carry state; `fbQ` answers `fb_x`, `fb_y`. -/
structure PortsOut where
  /-- `beep`. -/
  beep : Bool
  /-- `fb_q`. -/
  fbQ : Bool
  /-- `dp_q`. -/
  dpQ : Bool
  /-- `fault_cause`, `fault_pc`, `fault_addr`, `dt_q`, `st_q`, `dt_zero`, `st_zero`,
  `snd_active`. -/
  status : Status
  deriving DecidableEq, Repr

/-- The output ports, for the pixel selected by `fb_x` and `fb_y` (R150; log 15). -/
def portsOut (fbX : BitVec 6) (fbY : BitVec 5) (s : State) : PortsOut where
  beep := s.beep
  fbQ := s.fb.pixel fbX.toNat fbY.toNat
  dpQ := s.dp
  status := s.status

end Sys2Proof.Machine
end

