-- ==== Sys2Proof/Safety.lean ====
section
/-!
DEFINITION. What counts as a safe run, in the terms claims use: when an instruction faults (table X1
of spec/60_exceptions.md R160), how a cycle ends (R60), the invariant of the machine, well-formed
programs (part 2 of spec/93_implementation_defined.md), the end of a run (R185), and frames.
-/

namespace Sys2Proof.Safety

open Sys2Proof.Machine

/-! ### Faults and the outcome of a cycle -/

/-- No fault is recorded: the core runs (R61). -/
abbrev Running (s : State) : Prop := s.fault.cause = .none

/-- Table X1 (R160): the fault an instruction raises and its `FAULT.addr`, or none. The last offsets
are `n`-1, 2, `x`, `x` (R164). -/
def faultOf (i : Instr) (s : State) : Option (FaultCause × Nat) :=
  let data (last : Nat) : Option (FaultCause × Nat) :=
    if s.i.toNat + last > 0xFFF then some (.memData, max s.i.toNat 0x1000) else none
  match i with
  | .call _ => if s.sp = 16 then some (.stackOverflow, 0) else none
  | .ret => if s.sp = 0 then some (.stackUnderflow, 0) else none
  | .drw _ _ n => if n = 0 then none else data (n.toNat - 1)
  | .ldB _ => data 2
  | .stRegs x => data x.val
  | .ldRegs x => data x.val
  | .cls | .jp _ | .seKk _ _ | .sneKk _ _ | .seVy _ _ | .ldKk _ _ | .addKk _ _ | .ldVy _ _
  | .orVy _ _ | .andVy _ _ | .xorVy _ _ | .addVy _ _ | .subVy _ _ | .shr _ _ | .subn _ _
  | .shl _ _ | .sneVy _ _ | .ldI _ | .jpV0 _ | .rnd _ _ | .skp _ | .sknp _ | .ldVxDt _
  | .ldVxK _ | .ldDtVx _ | .ldStVx _ | .addI _ | .ldF _ | .unassigned _ => none

/-- How a cycle ends (R60), and the cycle of a halted core (R61). -/
inductive CycleEnd where
  /-- A fault was recorded before (R61). -/
  | halted
  /-- This cycle records a fault (R69). -/
  | faulted
  /-- `LD Vx, K` with no key pressed (R67). -/
  | waiting
  /-- The instruction's effects are applied and the timers tick (R65). -/
  | completed
  deriving DecidableEq, Repr

/-- The end of the next cycle, in the order of test of R167. -/
def cycleEnd (s : State) : CycleEnd :=
  if s.fault.cause ≠ .none then .halted
  else if s.pc.toNat > 0xFFE then .faulted
  else if (faultOf s.fetchInstr s).isSome then .faulted
  else if waits s.fetchInstr s then .waiting
  else .completed

/-! ### The invariant -/

/-- What holds of every state the machine can be in: memory is canonical; `PC` and the stack stay
inside the bounds of R14; the latch is clear or tells what happened (R22, R168, R160). -/
structure Inv (s : State) : Prop where
  /-- The canonical form of memory. -/
  mem_wf : s.mem.wf
  /-- `JP V0` reaches at most 0x10FE, an advance at most 0x1002 (R14). -/
  pc_le : s.pc.toNat ≤ 0x10FE
  /-- "a stack entry holds at most 0xFFE + 2 = 0x1000" (R14). -/
  stack_le : ∀ k : Fin 16, s.stack[k].toNat ≤ 0x1000
  /-- No fault recorded: the latch is (0, 0, 0). -/
  latch_clear : Running s → s.fault = FaultLatch.clear
  /-- A fault recorded: `PC` still points at the faulting instruction. -/
  latch_pc : ¬ Running s → s.fault.pc = s.pc
  /-- StackFault.Overflow: the stack is full. -/
  latch_overflow : s.fault.cause = .stackOverflow → s.sp = 16 ∧ s.fault.addr = 0
  /-- StackFault.Underflow: the stack is empty. -/
  latch_underflow : s.fault.cause = .stackUnderflow → s.sp = 0 ∧ s.fault.addr = 0
  /-- MemFault.Fetch: an instruction byte would lie above 0xFFF. -/
  latch_fetch : s.fault.cause = .memFetch →
    s.pc.toNat > 0xFFE ∧ s.fault.addr.toNat = max s.pc.toNat 0x1000
  /-- MemFault.Data: a data byte would lie above 0xFFF. -/
  latch_data : s.fault.cause = .memData →
    s.i.toNat + 15 > 0xFFF ∧ s.fault.addr.toNat = max s.i.toNat 0x1000

/-! ### Well-formed programs -/

/-- The patterns of entry U2: register F as `x` or `y` of a flag-writing instruction. -/
def flagAsOperand : Instr → Bool
  | .addVy x y | .subVy x y | .subn x y => x == vf || y == vf
  | .shr x _ | .shl x _ | .addI x => x == vf
  | .drw x y _ => x == vf || y == vf
  | .cls | .ret | .jp _ | .call _ | .seKk _ _ | .sneKk _ _ | .seVy _ _ | .ldKk _ _ | .addKk _ _
  | .ldVy _ _ | .orVy _ _ | .andVy _ _ | .xorVy _ _ | .sneVy _ _ | .ldI _ | .jpV0 _ | .rnd _ _
  | .skp _ | .sknp _ | .ldVxDt _ | .ldVxK _ | .ldDtVx _ | .ldStVx _ | .ldF _ | .ldB _
  | .stRegs _ | .ldRegs _ | .unassigned _ => false

/-- W1: `SP` <= 14 before a `CALL` and `SP` >= 1 before a `RET`. -/
def stackUseOk (i : Instr) (s : State) : Bool :=
  match i with
  | .call _ => s.sp.val ≤ 14
  | .ret => 1 ≤ s.sp.val
  | _ => true

/-- W2 for data: `I` + last offset <= 0xFFF at the four memory instructions. -/
def dataUseOk (i : Instr) (s : State) : Bool :=
  match i with
  | .drw _ _ n => n == 0 || s.i.toNat + n.toNat - 1 ≤ 0xFFF
  | .ldB _ => s.i.toNat + 2 ≤ 0xFFF
  | .stRegs x => s.i.toNat + x.val ≤ 0xFFF
  | .ldRegs x => s.i.toNat + x.val ≤ 0xFFF
  | _ => true

/-- W6: `Vx` <= 15 at `SKP`, `SKNP` and `LD F`. -/
def indexUseOk (i : Instr) (s : State) : Bool :=
  match i with
  | .skp x => (s.reg x).toNat ≤ 15
  | .sknp x => (s.reg x).toNat ≤ 15
  | .ldF x => (s.reg x).toNat ≤ 15
  | _ => true

/-- W5: the instruction is one of the 34. -/
def isAssigned : Instr → Bool
  | .unassigned _ => false
  | _ => true

/-- W7: `LD F` needs a font. -/
def fontUseOk (c : Config) : Instr → Bool
  | .ldF _ => c.fontPresent
  | _ => true

/-- The state is one in which a well-formed program may be about to run a cycle: the conditions W1
to W7 of part 2 of spec/93_implementation_defined.md hold of the instruction it will fetch. -/
structure WellFormedCycle (c : Config) (s : State) : Prop where
  /-- W1. -/
  stack_ok : stackUseOk s.fetchInstr s = true
  /-- W2, the fetch. -/
  fetch_ok : s.pc.toNat ≤ 0xFFE
  /-- W2, the data. -/
  data_ok : dataUseOk s.fetchInstr s = true
  /-- W3. -/
  pc_even : s.pc.toNat % 2 = 0
  /-- W4. -/
  no_flag_operand : flagAsOperand s.fetchInstr = false
  /-- W5. -/
  assigned : isAssigned s.fetchInstr = true
  /-- W6. -/
  index_ok : indexUseOk s.fetchInstr s = true
  /-- W7. -/
  font_ok : fontUseOk c s.fetchInstr = true

/-! ### The end of a run -/

/-- The end of a program by the convention of R185: `JP nnn` at address `nnn`, and no fault. -/
def AtSelfJump (s : State) : Prop :=
  Running s ∧ s.pc.toNat ≤ 0xFFE ∧ s.fetchWord = 0x1000 ||| s.pc

/-- "the state is final once both timers are 0" (R185). -/
def Final (s : State) : Prop := AtSelfJump s ∧ s.dt = 0 ∧ s.st = 0

/-! ### Frames -/

/-- Every byte of memory reads as before. -/
def SameMemory (s t : State) : Prop := ∀ a, t.mem.read a = s.mem.read a

/-- Every byte of memory outside the `len` bytes from `base` up reads as before. -/
def SameMemoryOutside (base len : Nat) (s t : State) : Prop :=
  ∀ a, a < base ∨ base + len ≤ a → t.mem.read a = s.mem.read a

/-- An instruction that writes one register: `value` in `V[x]`, `PC` + 2, and nothing else. -/
def WritesReg (x : RegIdx) (value : Nat) (s t : State) : Prop :=
  (t.reg x).toNat = value ∧ (∀ q, q ≠ x → t.reg q = s.reg q) ∧ t.pc = s.pc + 2 ∧
    SameMemory s t ∧ t = { s with v := t.v, pc := t.pc }

/-- A flag-writing ALU instruction: `value` in `V[x]`, and `flag` in `VF` unless `x` = F, where the
result survives (R70); `PC` + 2, and nothing else. -/
def WritesFlagAndReg (x : RegIdx) (flag value : Nat) (s t : State) : Prop :=
  (t.reg x).toNat = value ∧ (x ≠ vf → (t.reg vf).toNat = flag) ∧
    (∀ q, q ≠ x → q ≠ vf → t.reg q = s.reg q) ∧ t.pc = s.pc + 2 ∧
    SameMemory s t ∧ t = { s with v := t.v, pc := t.pc }

/-- An instruction that writes only `PC`. -/
def WritesPc (target : Word) (s t : State) : Prop :=
  t.pc = target ∧ SameMemory s t ∧ t = { s with pc := t.pc }

/-! ### Sprites -/

/-- Does the sprite at `base`, drawn at (`vx`, `vy`) with `n` rows, have a 1 at pixel (`px`, `py`)?
Sprite row r is at row `vy` + r, bit 7 - c of its byte at column `vx` + c (R122). -/
def spriteAt (m : Memory) (base vx vy n px py : Nat) : Bool :=
  vx ≤ px && px < vx + 8 && vy ≤ py && py < vy + n &&
    (m.read (base + (py - vy))).getLsbD (7 - (px - vx))

/-- A pixel of the grid. -/
abbrev onGrid (px py : Nat) : Prop := px ≤ 63 ∧ py ≤ 31

/-- Some sprite bit that is 1 hits a pixel of the grid that is 1 (R121). -/
def collides (m : Memory) (base vx vy n : Nat) (f : Framebuffer) : Prop :=
  ∃ px py, onGrid px py ∧ spriteAt m base vx vy n px py = true ∧ f.pixel px py = true

/-! ### Who writes what -/

/-- Does the instruction name `r` as the destination of a register write (R11)? -/
def destination (r : RegIdx) : Instr → Bool
  | .ldKk x _ | .addKk x _ | .rnd x _ => x == r
  | .ldVy x _ | .orVy x _ | .andVy x _ | .xorVy x _ | .addVy x _ | .subVy x _ | .shr x _
  | .subn x _ | .shl x _ => x == r
  | .ldVxDt x | .ldVxK x => x == r
  | .ldRegs x => r ≤ x
  | .cls | .ret | .jp _ | .call _ | .seKk _ _ | .sneKk _ _ | .seVy _ _ | .sneVy _ _ | .ldI _
  | .jpV0 _ | .drw _ _ _ | .skp _ | .sknp _ | .ldDtVx _ | .ldStVx _ | .addI _ | .ldF _ | .ldB _
  | .stRegs _ | .unassigned _ => false

/-- The seven instructions that write `VF` as a side effect (R12). -/
def writesFlag : Instr → Bool
  | .addVy _ _ | .subVy _ _ | .shr _ _ | .subn _ _ | .shl _ _ | .drw _ _ _ | .addI _ => true
  | .cls | .ret | .jp _ | .call _ | .seKk _ _ | .sneKk _ _ | .seVy _ _ | .ldKk _ _ | .addKk _ _
  | .ldVy _ _ | .orVy _ _ | .andVy _ _ | .xorVy _ _ | .sneVy _ _ | .ldI _ | .jpV0 _ | .rnd _ _
  | .skp _ | .sknp _ | .ldVxDt _ | .ldVxK _ | .ldDtVx _ | .ldStVx _ | .ldF _ | .ldB _ | .stRegs _
  | .ldRegs _ | .unassigned _ => false

/-- Does the action make `DP` 1 when it is performed in `s`: a RESET, or a STEP that completes a
`CLS` or a `DRW` (R146)? -/
def setsDrawPending (a : HostAction) (s : State) : Prop :=
  a = .reset ∨ ((∃ r, a = .step r) ∧ cycleEnd s = .completed ∧
    (s.fetchInstr = .cls ∨ ∃ x y n, s.fetchInstr = .drw x y n))

/-! ### Assembler lines -/

/-- The number among the operands of an instruction's line, with the width of its field: `nnn` has 12
bits, `kk` 8 and `n` 4 (R53); none where the line has no number. -/
def numberField : Instr → Option (Nat × Nat)
  | .jp a | .call a | .ldI a | .jpV0 a => some (12, a.toNat)
  | .seKk _ kk | .sneKk _ kk | .ldKk _ kk | .addKk _ kk | .rnd _ kk => some (8, kk.toNat)
  | .drw _ _ n => some (4, n.toNat)
  | .cls | .ret | .seVy _ _ | .ldVy _ _ | .orVy _ _ | .andVy _ _ | .xorVy _ _ | .addVy _ _
  | .subVy _ _ | .shr _ _ | .subn _ _ | .shl _ _ | .sneVy _ _ | .skp _ | .sknp _ | .ldVxDt _
  | .ldVxK _ | .ldDtVx _ | .ldStVx _ | .addI _ | .ldF _ | .ldB _ | .stRegs _ | .ldRegs _
  | .unassigned _ => none

/-! ### Runs -/

/-- `k` cycles of the core. -/
abbrev cycles (k : Nat) (s : State) : Result := Host.Core.run Sys2Proof.core k s

end Sys2Proof.Safety
end

