-- ==== Sys2Proof/Certificates/Slice0/Obligations.lean ====
section
/-!
DEFINITION. The statements for the provers, by the rules of spec/. Each docstring names the rules it
formalises, and the decision D<n> of spec/92_eei_decisions.md where the rule is the spec's own
choice, or the log entry where a clause is the model's. A statement about a stored value assumes the
canonical form of memory, which `Obligations.CycleKeepsInvariant` and
`Obligations.HostRunKeepsInvariant` keep.
-/

open Sys2Proof Sys2Proof.Machine Sys2Proof.Safety

/-! ### The cycle (spec/40_cycle.md) -/

/-- R60, R62, R63: a running core with `PC` <= 0xFFE fetches two bytes big-endian, decodes them and
executes the instruction; then the timers tick, unless the cycle faulted or waits. -/
def Obligations.StepRunsTheFetchedInstruction : Prop :=
  ∀ (s t : State) (hi lo : Byte) (i : Instr), Running s → s.pc.toNat ≤ 0xFFE →
    s.mem.read s.pc.toNat = hi → s.mem.read (s.pc.toNat + 1) = lo →
    decodeBytes [hi, lo] = .ok (i, []) → exec i s = .next t →
    step s = .next (if ¬ Running t ∨ waits i s = true then t else t.tick)

/-- R65, R66: a completed cycle decrements each nonzero timer by 1 after the effects of the
instruction, and `beep` is 1 exactly when `ST` was 2; a waiting, faulted or halted cycle ticks
nothing and raises no beep. -/
def Obligations.TimersTickOncePerCompletedCycle : Prop :=
  (∀ s u : State, cycleEnd s = .completed → exec s.fetchInstr s = .next u →
    ∃ t, step s = .next t ∧ t.dt.toNat = u.dt.toNat - 1 ∧ t.st.toNat = u.st.toNat - 1 ∧
      (t.beep = true ↔ u.st.toNat = 2) ∧ t = { u with dt := t.dt, st := t.st, beep := t.beep }) ∧
  (∀ s t : State, cycleEnd s ≠ .completed → step s = .next t →
    t.dt = s.dt ∧ t.st = s.st ∧ t.beep = false)

/-- R61 (D5, D15): while a fault is recorded, any number of cycles changes nothing and raises no
beep. -/
def Obligations.HaltedCoreChangesNothing : Prop :=
  ∀ (k : Nat) (s : State), ¬ Running s → cycles (k + 1) s = .next { s with beep := false }

/-- R67: with `LD Vx, K` at `PC` and every key released, any number of cycles is the identity on the
state, with `beep` = 0. -/
def Obligations.WaitingCyclesChangeNothing : Prop :=
  ∀ (k : Nat) (s : State) (x : RegIdx), Running s → s.pc.toNat ≤ 0xFFE →
    s.fetchInstr = .ldVxK x → (∀ j : KeyIdx, s.key j = false) →
    cycles (k + 1) s = .next { s with beep := false }

/-- R60, R61, R168, as the model reads them (log 5, DEDUCED): no cycle stops the model. The spec says
that a fault halts the core until reset (R61); that the cycle which records a fault, and every cycle
of a halted core, answers a next state rather than a stop is the model's reading, not a rule. -/
def Obligations.EveryCycleHasANextState : Prop :=
  ∀ s : State, ∃ t, step s = .next t

/-! ### Faults (spec/60_exceptions.md) -/

/-- R163 (D3, D5): a fetch above 0xFFE takes MemFault.Fetch. -/
def Obligations.FetchAboveMemoryFaults : Prop :=
  ∀ s : State, Running s → s.pc.toNat > 0xFFE →
    ∃ t, step s = .next t ∧ t.fault.cause = .memFetch ∧ t.fault.pc = s.pc ∧
      t.fault.addr.toNat = max s.pc.toNat 0x1000 ∧ t = { s with fault := t.fault, beep := false }

/-- R160, R161, R162, R164, R168 (D3, D4, D5): the instructions fault exactly on the conditions of
table X1 (`faultOf`), with the cause and the address of the table, and leave everything else; on
every other state they leave `FAULT` alone. -/
def Obligations.InstructionsFaultByTableX1 : Prop :=
  ∀ (i : Instr) (s : State),
    (∀ c a, faultOf i s = some (c, a) →
      ∃ t, exec i s = .next t ∧ t.fault.cause = c ∧ t.fault.pc = s.pc ∧ t.fault.addr.toNat = a ∧
        t = { s with fault := t.fault, beep := false }) ∧
    (faultOf i s = none → ∃ t, exec i s = .next t ∧ t.fault = s.fault)

/-- R69, R168 (D5, D15): a cycle that records a fault changes nothing but `FAULT`, and `FAULT.pc` is
the address of the instruction. -/
def Obligations.FaultedCyclesArePrecise : Prop :=
  ∀ s t : State, Running s → step s = .next t → ¬ Running t →
    t = { s with fault := t.fault, beep := false } ∧ t.fault.pc = s.pc

/-- R167, R60: `cycleEnd` says what a cycle does: it records a fault exactly when it is `faulted`.
-/
def Obligations.CycleFaultsExactlyWhenPredicted : Prop :=
  ∀ s t : State, step s = .next t → (cycleEnd s = .faulted ↔ Running s ∧ ¬ Running t)

/-- W1, W2 of spec/93_implementation_defined.md and R176: a well-formed program's cycle never
faults. -/
def Obligations.WellFormedCyclesNeverFault : Prop :=
  ∀ (c : Config) (s t : State), Running s → WellFormedCycle c s → step s = .next t → Running t

/-! ### Control transfer (spec/41_control_flow.md) -/

/-- R83 to R86: the skips add 4 to `PC` exactly when the stated comparison holds, else 2,
and change nothing else. -/
def Obligations.SkipsAddFourOrTwo : Prop :=
  ∀ (s : State) (x y : RegIdx) (kk : Byte),
    (∃ t, exec (.seKk x kk) s = .next t ∧
      WritesPc (if (s.reg x).toNat = kk.toNat then s.pc + 4 else s.pc + 2) s t) ∧
    (∃ t, exec (.sneKk x kk) s = .next t ∧
      WritesPc (if (s.reg x).toNat ≠ kk.toNat then s.pc + 4 else s.pc + 2) s t) ∧
    (∃ t, exec (.seVy x y) s = .next t ∧
      WritesPc (if (s.reg x).toNat = (s.reg y).toNat then s.pc + 4 else s.pc + 2) s t) ∧
    (∃ t, exec (.sneVy x y) s = .next t ∧
      WritesPc (if (s.reg x).toNat ≠ (s.reg y).toNat then s.pc + 4 else s.pc + 2) s t)

/-- R130, R131 (D10): the key skips test the key whose index is the low four bits of `Vx`. -/
def Obligations.KeySkipsTestTheLatch : Prop :=
  ∀ (s : State) (x : RegIdx) (k : KeyIdx), k.val = (s.reg x).toNat % 16 →
    (∃ t, exec (.skp x) s = .next t ∧
      WritesPc (if s.keys[k] = true then s.pc + 4 else s.pc + 2) s t) ∧
    (∃ t, exec (.sknp x) s = .next t ∧
      WritesPc (if s.keys[k] = false then s.pc + 4 else s.pc + 2) s t)

/-- R81, R87 (D24): the jumps set `PC` directly, to `nnn` and to `nnn + V[0]` without reduction. -/
def Obligations.JumpsSetPcDirectly : Prop :=
  ∀ (s : State) (nnn : BitVec 12),
    (∃ t, exec (.jp nnn) s = .next t ∧ t.pc.toNat = nnn.toNat ∧ SameMemory s t ∧
      t = { s with pc := t.pc }) ∧
    (∃ t, exec (.jpV0 nnn) s = .next t ∧ t.pc.toNat = nnn.toNat + (s.reg 0).toNat ∧
      SameMemory s t ∧ t = { s with pc := t.pc })

/-- R82, R161 (D4): with a free entry `CALL` stores `PC` + 2 at `STACK[SP]`, adds 1 to `SP` and
jumps; with 16 live entries it takes StackFault.Overflow and pushes nothing. -/
def Obligations.CallPushesTheReturnAddress : Prop :=
  ∀ (s : State) (nnn : BitVec 12),
    (∀ h : s.sp.val < 16, ∃ t, exec (.call nnn) s = .next t ∧ t.stack[s.sp.val] = s.pc + 2 ∧
      (∀ k : Fin 16, k.val ≠ s.sp.val → t.stack[k] = s.stack[k]) ∧ t.sp.val = s.sp.val + 1 ∧
      t.pc.toNat = nnn.toNat ∧ SameMemory s t ∧
      t = { s with stack := t.stack, sp := t.sp, pc := t.pc }) ∧
    (s.sp.val = 16 → ∃ t, exec (.call nnn) s = .next t ∧ t.fault.cause = .stackOverflow ∧
      t.fault.pc = s.pc ∧ t.fault.addr = 0 ∧ t = { s with fault := t.fault, beep := false })

/-- R80, R162 (D4): with a live entry `RET` takes 1 from `SP` and loads `PC` from the entry it
frees, which keeps its value; with none it takes StackFault.Underflow. -/
def Obligations.RetPopsIntoPc : Prop :=
  ∀ s : State,
    (∀ k : Fin 16, s.sp.val = k.val + 1 → ∃ t, exec .ret s = .next t ∧ t.sp.val = k.val ∧
      t.pc = s.stack[k] ∧ SameMemory s t ∧ t = { s with sp := t.sp, pc := t.pc }) ∧
    (s.sp.val = 0 → ∃ t, exec .ret s = .next t ∧ t.fault.cause = .stackUnderflow ∧
      t.fault.pc = s.pc ∧ t.fault.addr = 0 ∧ t = { s with fault := t.fault, beep := false })

/-- R82, R80 (source example S10): a `CALL` and the `RET` after it come back to the instruction
after the call, and leave every other element of state but the dead stack entry. -/
def Obligations.RetUndoesCall : Prop :=
  ∀ (s t u : State) (nnn : BitVec 12), s.sp.val < 16 →
    exec (.call nnn) s = .next t → exec .ret t = .next u →
    u = { s with pc := s.pc + 2, stack := u.stack } ∧
      ∀ k : Fin 16, k.val ≠ s.sp.val → u.stack[k] = s.stack[k]

/-- R68: an unassigned word adds 2 to `PC` and changes nothing else; its cycle completes, so the
timers tick after it. -/
def Obligations.UnassignedOnlyAdvances : Prop :=
  ∀ (s : State) (op : Word),
    (∃ t, exec (.unassigned op) s = .next t ∧ WritesPc (s.pc + 2) s t) ∧
    (Running s → s.pc.toNat ≤ 0xFFE → s.fetchInstr = .unassigned op →
      step s = .next { s with pc := s.pc + 2 }.tick)

/-! ### Load, arithmetic, logic, shift, random (spec/42_alu.md) -/

/-- R90, R91, R92: the loads and `ADD Vx, kk` write `V[x]` and leave `VF` (unless `x` = F) and
everything else alone. -/
def Obligations.LoadsAndImmediateAddWriteOneRegister : Prop :=
  ∀ (s : State) (x y : RegIdx) (kk : Byte),
    (∃ t, exec (.ldKk x kk) s = .next t ∧ WritesReg x kk.toNat s t) ∧
    (∃ t, exec (.addKk x kk) s = .next t ∧
      WritesReg x (((s.reg x).toNat + kk.toNat) % 256) s t) ∧
    (∃ t, exec (.ldVy x y) s = .next t ∧ WritesReg x (s.reg y).toNat s t)

/-- R93, R94, R95, R102: the logical instructions work bit by bit, write `V[x]` and leave `VF`
(unless `x` = F) and everything else alone. That `VF` stays is the spec's inference ("the source's
truth table lists no flag effect for functions 1, 2, 3"). -/
def Obligations.LogicWritesOneRegisterAndNoFlag : Prop :=
  ∀ (s : State) (x y : RegIdx),
    (∃ t, exec (.orVy x y) s = .next t ∧
      WritesReg x ((s.reg x).toNat ||| (s.reg y).toNat) s t) ∧
    (∃ t, exec (.andVy x y) s = .next t ∧
      WritesReg x ((s.reg x).toNat &&& (s.reg y).toNat) s t) ∧
    (∃ t, exec (.xorVy x y) s = .next t ∧
      WritesReg x ((s.reg x).toNat ^^^ (s.reg y).toNat) s t)

/-- R96, R97, R99: the sum with its carry, and the two differences with not-borrow, from the latched
operands. R70 (D7; log 7, U2): with `x` = F the result survives and the flag is lost, and with `y` = F
the operand is the old `VF`. -/
def Obligations.AddAndSubtractWriteTheFlag : Prop :=
  ∀ (s : State) (x y : RegIdx) (a b : Nat), a = (s.reg x).toNat → b = (s.reg y).toNat →
    (∃ t, exec (.addVy x y) s = .next t ∧
      WritesFlagAndReg x (if a + b > 255 then 1 else 0) ((a + b) % 256) s t) ∧
    (∃ t, exec (.subVy x y) s = .next t ∧
      WritesFlagAndReg x (if a ≥ b then 1 else 0) ((a + 256 - b) % 256) s t) ∧
    (∃ t, exec (.subn x y) s = .next t ∧
      WritesFlagAndReg x (if b ≥ a then 1 else 0) ((b + 256 - a) % 256) s t)

/-- R98, R100: the shifts move `V[x]` by one bit; the bit shifted out goes to `VF`; `V[y]` is neither
read nor written. R70 (D7; log 7, U2): with `x` = F the result survives and the flag is lost. -/
def Obligations.ShiftsMoveOneBitIntoTheFlag : Prop :=
  ∀ (s : State) (x y : RegIdx) (a : Nat), a = (s.reg x).toNat →
    (∃ t, exec (.shr x y) s = .next t ∧ WritesFlagAndReg x (a % 2) (a / 2) s t) ∧
    (∃ t, exec (.shl x y) s = .next t ∧ WritesFlagAndReg x (a / 128) (2 * a % 256) s t)

/-- R101: `RND` writes the random byte and-ed with `kk`, so the result is at most `kk` and has a 1
only where `kk` has one; nothing else of the spec's state changes but `PC`. -/
def Obligations.RndMasksTheRandomByte : Prop :=
  ∀ (s : State) (x : RegIdx) (kk : Byte), ∃ t, exec (.rnd x kk) s = .next t ∧
    t.reg x = s.rndByte &&& kk ∧ (t.reg x).toNat ≤ kk.toNat ∧ t.reg x &&& ~~~kk = 0 ∧
    (∀ q, q ≠ x → t.reg q = s.reg q) ∧ t.pc = s.pc + 2 ∧ SameMemory s t ∧
    t = { s with v := t.v, pc := t.pc, rndCount := t.rndCount }

/-- R144, R101 (D14): in a STEP the random byte is the one the host supplies. -/
def Obligations.StepGivesRndTheHostsByte : Prop :=
  ∀ (s : State) (x : RegIdx) (kk r : Byte), Running s → s.pc.toNat ≤ 0xFFE →
    s.fetchInstr = .rnd x kk → ∃ t, hostStep r s = .next t ∧ t.reg x = r &&& kk

/-- R71 (D14): the random input "is used only by `RND Vx, kk`". -/
def Obligations.OnlyRndReadsTheRandomInput : Prop :=
  ∀ (s : State) (r r' : Byte), (∀ x kk, s.fetchInstr ≠ .rnd x kk) → hostStep r s = hostStep r' s

/-! ### Index register and memory (spec/43_index_memory.md) -/

/-- R110, R112 (D11): `LD I, nnn` loads `nnn`; `LD F, Vx` loads the address of the glyph of the low
four bits of `Vx`. Only `I` and `PC` change. -/
def Obligations.IndexLoads : Prop :=
  ∀ (s : State) (nnn : BitVec 12) (x : RegIdx),
    (∃ t, exec (.ldI nnn) s = .next t ∧ t.i.toNat = nnn.toNat ∧ t.pc = s.pc + 2 ∧
      SameMemory s t ∧ t = { s with i := t.i, pc := t.pc }) ∧
    (∃ t, exec (.ldF x) s = .next t ∧ t.i.toNat = 5 * ((s.reg x).toNat % 16) ∧ t.pc = s.pc + 2 ∧
      SameMemory s t ∧ t = { s with i := t.i, pc := t.pc })

/-- R111 (D13, D24): `ADD I, Vx` stores the sum mod 65536 in `I`, and `VF` says whether the
un-truncated sum is above 0xFFF; the addend is the latched `Vx`, also for `x` = F. -/
def Obligations.AddIndexSetsTheFlag : Prop :=
  ∀ (s : State) (x : RegIdx) (sum : Nat), sum = s.i.toNat + (s.reg x).toNat →
    ∃ t, exec (.addI x) s = .next t ∧ t.i.toNat = sum % 65536 ∧
      (t.reg vf).toNat = (if sum > 0xFFF then 1 else 0) ∧ (∀ q, q ≠ vf → t.reg q = s.reg q) ∧
      t.pc = s.pc + 2 ∧ SameMemory s t ∧ t = { s with v := t.v, i := t.i, pc := t.pc }

/-- R113: `LD B, Vx` stores the hundreds, tens and ones of `Vx` at `I`, `I`+1, `I`+2 and nothing
elsewhere, and leaves `I` (R116, D12); with `I` > 0xFFD it takes MemFault.Data (R34, R164, D3), which
changes nothing but `FAULT` (R168, D5; log 5). -/
def Obligations.BcdStoresThreeDigits : Prop :=
  ∀ (s : State) (x : RegIdx) (d : Nat), s.mem.wf → d = (s.reg x).toNat →
    (s.i.toNat ≤ 0xFFD → ∃ t, exec (.ldB x) s = .next t ∧
      (t.mem.read (s.ea 0)).toNat = d / 100 ∧ (t.mem.read (s.ea 1)).toNat = d / 10 % 10 ∧
      (t.mem.read (s.ea 2)).toNat = d % 10 ∧ SameMemoryOutside (s.ea 0) 3 s t ∧
      t.pc = s.pc + 2 ∧ t = { s with mem := t.mem, pc := t.pc }) ∧
    (s.i.toNat > 0xFFD → ∃ t, exec (.ldB x) s = .next t ∧ t.fault.cause = .memData ∧
      t.fault.pc = s.pc ∧ t.fault.addr.toNat = max s.i.toNat 0x1000 ∧
      t = { s with fault := t.fault, beep := false })

/-- R114: `LD [I], Vx` stores `V[0]` to `V[x]` at `I` to `I`+x and nothing elsewhere, and leaves `I`
(R116, D12); when the last address is above 0xFFF it takes MemFault.Data (R34, R164, D3), which
changes nothing but `FAULT` (R168, D5; log 5). -/
def Obligations.StoreRegistersAscending : Prop :=
  ∀ (s : State) (x : RegIdx), s.mem.wf →
    (s.ea x.val ≤ 0xFFF → ∃ t, exec (.stRegs x) s = .next t ∧
      (∀ k : RegIdx, k ≤ x → t.mem.read (s.ea k.val) = s.reg k) ∧
      SameMemoryOutside (s.ea 0) (x.val + 1) s t ∧ t.pc = s.pc + 2 ∧
      t = { s with mem := t.mem, pc := t.pc }) ∧
    (s.ea x.val > 0xFFF → ∃ t, exec (.stRegs x) s = .next t ∧ t.fault.cause = .memData ∧
      t.fault.pc = s.pc ∧ t.fault.addr.toNat = max s.i.toNat 0x1000 ∧
      t = { s with fault := t.fault, beep := false })

/-- R115: `LD Vx, [I]` loads `V[0]` to `V[x]` from `I` to `I`+x, and changes no other register, nor
memory, nor `I` (R116, D12); when the last address is above 0xFFF it takes MemFault.Data (R34, R164,
D3), which changes nothing but `FAULT` (R168, D5; log 5). -/
def Obligations.LoadRegistersAscending : Prop :=
  ∀ (s : State) (x : RegIdx),
    (s.ea x.val ≤ 0xFFF → ∃ t, exec (.ldRegs x) s = .next t ∧
      (∀ k : RegIdx, k ≤ x → t.reg k = s.mem.read (s.ea k.val)) ∧
      (∀ k : RegIdx, x < k → t.reg k = s.reg k) ∧ t.pc = s.pc + 2 ∧ SameMemory s t ∧
      t = { s with v := t.v, pc := t.pc }) ∧
    (s.ea x.val > 0xFFF → ∃ t, exec (.ldRegs x) s = .next t ∧ t.fault.cause = .memData ∧
      t.fault.pc = s.pc ∧ t.fault.addr.toNat = max s.i.toNat 0x1000 ∧
      t = { s with fault := t.fault, beep := false })

/-- R39: self-modifying code: a store to the bytes after the running `LD [I], Vx` is what the next
cycle fetches. -/
def Obligations.StoresAreSeenByTheNextFetch : Prop :=
  ∀ (s t : State) (x : RegIdx), s.mem.wf → Running s → s.pc.toNat ≤ 0xFFE →
    s.fetchInstr = .stRegs x → 1 ≤ x.val → s.i = s.pc + 2 → s.ea x.val ≤ 0xFFF → step s = .next t →
    t.fetchWord = wordOfBytes (s.reg 0) (s.reg 1)

/-! ### Framebuffer (spec/44_display.md) -/

/-- R120: `CLS` clears every pixel and sets `DP`; registers, `I`, memory and all else stay. -/
def Obligations.ClsClearsEveryPixel : Prop :=
  ∀ s : State, ∃ t, exec .cls s = .next t ∧
    (∀ px py, px ≤ 63 → py ≤ 31 → t.fb.pixel px py = false) ∧ t.dp = true ∧ t.pc = s.pc + 2 ∧
    SameMemory s t ∧ t = { s with fb := t.fb, dp := t.dp, pc := t.pc }

/-- R121, R122 (D9): each pixel of the grid after `DRW` is the old pixel exclusive-or the sprite's
bit there (`spriteAt`: bit 7 of a row at column `Vx`, no reduction of any coordinate); `VF` is 1
exactly when a set pixel was hit; `DP` is set; `I`, memory and the other registers stay. -/
def Obligations.DrwXorsTheSpritePixelByPixel : Prop :=
  ∀ (s : State) (x y : RegIdx) (n : BitVec 4) (cx cy : Nat),
    cx = (s.reg x).toNat → cy = (s.reg y).toNat → (n = 0 ∨ s.ea (n.toNat - 1) ≤ 0xFFF) →
    ∃ t, exec (.drw x y n) s = .next t ∧
      (∀ px py, px ≤ 63 → py ≤ 31 → t.fb.pixel px py =
        (s.fb.pixel px py ^^ spriteAt s.mem (s.ea 0) cx cy n.toNat px py)) ∧
      (collides s.mem (s.ea 0) cx cy n.toNat s.fb → t.reg vf = 1) ∧
      (¬ collides s.mem (s.ea 0) cx cy n.toNat s.fb → t.reg vf = 0) ∧
      (∀ q, q ≠ vf → t.reg q = s.reg q) ∧ t.dp = true ∧ t.pc = s.pc + 2 ∧ SameMemory s t ∧
      t = { s with v := t.v, fb := t.fb, dp := t.dp, pc := t.pc }

/-- R121 (source example S6): drawing the same sprite twice at the same place restores the
framebuffer; on a framebuffer that was clear, the second draw sets `VF` exactly when some sprite
bit that is 1 lands on the grid. -/
def Obligations.DrawingTwiceRestoresTheFramebuffer : Prop :=
  ∀ (s t u : State) (x y : RegIdx) (n : BitVec 4), x ≠ vf → y ≠ vf →
    (n = 0 ∨ s.ea (n.toNat - 1) ≤ 0xFFF) →
    exec (.drw x y n) s = .next t → exec (.drw x y n) t = .next u →
    u.fb = s.fb ∧
      (s.fb = blankFramebuffer →
        (u.reg vf = 1 ↔ ∃ px py, px ≤ 63 ∧ py ≤ 31 ∧
          spriteAt s.mem (s.ea 0) (s.reg x).toNat (s.reg y).toNat n.toNat px py = true))

/-! ### Keys and timers (spec/45_keys_timers.md) -/

/-- R132: with a key pressed `LD Vx, K` loads the index of the lowest pressed key and completes;
with none it waits: nothing of the spec's state changes (`beep` is the model's output field, log 4).
-/
def Obligations.KeyWaitTakesTheLowestKey : Prop :=
  ∀ (s : State) (x : RegIdx),
    (∀ k : KeyIdx, s.key k = true → (∀ j : KeyIdx, j < k → s.key j = false) →
      ∃ t, exec (.ldVxK x) s = .next t ∧ waits (.ldVxK x) s = false ∧ WritesReg x k.val s t) ∧
    ((∀ j : KeyIdx, s.key j = false) →
      exec (.ldVxK x) s = .next { s with beep := false } ∧ waits (.ldVxK x) s = true)

/-- R133, R134, R135: the timer loads and the timer read, before the tick of their own cycle. -/
def Obligations.TimerAccess : Prop :=
  ∀ (s : State) (x : RegIdx),
    (∃ t, exec (.ldVxDt x) s = .next t ∧ WritesReg x s.dt.toNat s t) ∧
    (∃ t, exec (.ldDtVx x) s = .next t ∧ t.dt = s.reg x ∧ t.pc = s.pc + 2 ∧ SameMemory s t ∧
      t = { s with dt := t.dt, pc := t.pc }) ∧
    (∃ t, exec (.ldStVx x) s = .next t ∧ t.st = s.reg x ∧ t.pc = s.pc + 2 ∧ SameMemory s t ∧
      t = { s with st := t.st, pc := t.pc })

/-- R134, R135, R65, R66: a timer store is decremented in its own cycle, and storing 2 in `ST` beeps
in that cycle. -/
def Obligations.TimerStoresTickInTheirOwnCycle : Prop :=
  ∀ (s t : State) (x : RegIdx), Running s → s.pc.toNat ≤ 0xFFE → step s = .next t →
    (s.fetchInstr = .ldDtVx x → t.dt.toNat = (s.reg x).toNat - 1) ∧
    (s.fetchInstr = .ldStVx x →
      t.st.toNat = (s.reg x).toNat - 1 ∧ (t.beep = true ↔ (s.reg x).toNat = 2))

/-! ### Who may change what (spec/10_state.md), over every instruction and every state -/

/-- R10, R30: a cycle changes memory only by `LD B` and `LD [I], Vx`. -/
def Obligations.OnlyTwoInstructionsStore : Prop :=
  ∀ s t : State, step s = .next t → (∀ x, s.fetchInstr ≠ .ldB x) → (∀ x, s.fetchInstr ≠ .stRegs x) →
    SameMemory s t

/-- R20, R21: a cycle changes the framebuffer and `DP` only by `CLS` and `DRW`, and never clears
`DP`. -/
def Obligations.OnlyClsAndDrwTouchTheDisplay : Prop :=
  ∀ s t : State, step s = .next t →
    (s.fetchInstr ≠ .cls → (∀ x y n, s.fetchInstr ≠ .drw x y n) → t.fb = s.fb ∧ t.dp = s.dp) ∧
    (s.dp = true → t.dp = true)

/-- R13, R15, R16, R17: a cycle changes `I` only by `LD I`, `ADD I`, `LD F`; the stack only by
`CALL`, `SP` only by `CALL` and `RET`; and it never changes the key latch. -/
def Obligations.OnlyTheirInstructionsWriteIndexStackAndKeys : Prop :=
  ∀ s t : State, step s = .next t →
    ((∀ a, s.fetchInstr ≠ .ldI a) → (∀ x, s.fetchInstr ≠ .addI x) → (∀ x, s.fetchInstr ≠ .ldF x) →
      t.i = s.i) ∧
    ((∀ a, s.fetchInstr ≠ .call a) → t.stack = s.stack) ∧
    ((∀ a, s.fetchInstr ≠ .call a) → s.fetchInstr ≠ .ret → t.sp = s.sp) ∧
    t.keys = s.keys

/-- R11, R12: a cycle changes a register only when its instruction names it as a destination, or,
for `VF`, is one of the seven that write the flag; and a flag write that is not overwritten is 0
or 1. -/
def Obligations.OnlyNamedRegistersAndTheFlagChange : Prop :=
  ∀ s t : State, step s = .next t →
    (∀ r : RegIdx, destination r s.fetchInstr = false → (r = vf → writesFlag s.fetchInstr = false) →
      t.reg r = s.reg r) ∧
    (cycleEnd s = .completed → writesFlag s.fetchInstr = true →
      destination vf s.fetchInstr = false → t.reg vf = 0 ∨ t.reg vf = 1)

/-- R21: "No instruction reads" `DP`: two states that differ only there go through the same cycle.
-/
def Obligations.DrawPendingIsNotRead : Prop :=
  ∀ (s t : State) (b : Bool), step s = .next t →
    ∃ u, step { s with dp := b } = .next u ∧ u = { t with dp := u.dp }

/-- R19: "No instruction reads it into a register": two states that differ only in `ST` go through
the same cycle but for `ST` and the beep. -/
def Obligations.SoundTimerIsNotRead : Prop :=
  ∀ (s t : State) (b : Byte), step s = .next t →
    ∃ u, step { s with st := b } = .next u ∧ u = { t with st := u.st, beep := u.beep }

/-- U10 of spec/93_implementation_defined.md, R80: stack entries at or above `SP` cannot be
observed: two states that differ only in them keep differing only in dead entries. -/
def Obligations.DeadStackEntriesAreUnobservable : Prop :=
  ∀ (s t : State) (st : Vector Word 16), (∀ k : Fin 16, k.val < s.sp.val → st[k] = s.stack[k]) →
    step s = .next t →
    ∃ u, step { s with stack := st } = .next u ∧ u = { t with stack := u.stack } ∧
      ∀ k : Fin 16, k.val < t.sp.val → u.stack[k] = t.stack[k]

/-! ### Encoding (spec/30_encoding.md) -/

/-- R47, R49, R50: decoding the word of a well-formed instruction gives it back, with every
operand. -/
def Obligations.DecodeInvertsEncode : Prop :=
  ∀ i : Instr, i.wellFormed = true → decode (encode i) = i

/-- R49, R63 (D8): decoding is total and loses nothing: every word is the word of the well-formed
instruction it decodes to. -/
def Obligations.EncodeInvertsDecode : Prop :=
  ∀ op : Word, (decode op).wellFormed = true ∧ encode (decode op) = op

/-- R50: every word selects exactly the row of table E3 that its decoding names, and an unassigned
word selects none. -/
def Obligations.DecodeFollowsTheOpcodeMap : Prop :=
  ∀ op : Word, ((opcodeMap.filter fun r => r.selects op).map fun r => r.mnemonic) =
    if isAssigned (decode op) = true then [(decode op).mnemonic] else []

/-- Words of spec/95_test_vectors.md V-DE and their decodings, one or more per family. -/
def Obligations.SampleWordsDecodeByTheTable : Prop :=
  decodeBytes [0x00, 0xE0] = .ok (.cls, []) ∧ decodeBytes [0x2A, 0xBC] = .ok (.call 0xABC, []) ∧
  decodeBytes [0x3A, 0x7F] = .ok (.seKk 10 0x7F, []) ∧
  decodeBytes [0x8A, 0xB5] = .ok (.subVy 10 11, []) ∧
  decodeBytes [0xA2, 0x0E] = .ok (.ldI 0x20E, []) ∧
  decodeBytes [0xD1, 0x25] = .ok (.drw 1 2 5, []) ∧ decodeBytes [0xE3, 0xA1] = .ok (.sknp 3, []) ∧
  decodeBytes [0xF4, 0x33] = .ok (.ldB 4, []) ∧
  decodeBytes [0x5A, 0xB1] = .ok (.unassigned 0x5AB1, [])

/-- R32, R45, R49, R62: a well-formed instruction placed where the core fetches is the instruction
that the next cycle executes, at that address, from any state. -/
def Obligations.PlacedInstructionIsExecuted : Prop :=
  ∀ (s t u : State) (i : Instr), s.mem.wf → i.wellFormed = true →
    u = s.withFetchWord 16 (encode i).toNat → exec i u = .next t →
    u.fetchInstr = i ∧ step u = .next (finishCycle i u t)

/-- R53 (D20; log 14), of the assembler's function on lines: it accepts exactly the lines R53 writes for the
instructions, and the one-operand shifts as `y` = 0; every number of a line it accepts is, untruncated,
the field that it fills; and a line whose number is too large for its field is rejected. A `DB` places
its bytes as they stand, and is rejected where one does not fit. -/
def Obligations.AssemblerLinesMeanTheirInstructions : Prop :=
  (∀ i m operands, asmInstr m operands = some i ↔ asmLine i = some (m, operands) ∨
    ∃ x, operands = [.reg x] ∧ (m = .shr ∧ i = .shr x 0 ∨ m = .shl ∧ i = .shl x 0)) ∧
  (∀ i m operands value, asmInstr m operands = some i → .num value ∈ operands →
    ∃ w, numberField i = some (w, value) ∧ value < 2 ^ w) ∧
  (∀ i m before after w field value, asmLine i = some (m, before ++ .num field :: after) →
    numberField i = some (w, field) → value ≥ 2 ^ w →
    asmInstr m (before ++ .num value :: after) = none) ∧
  (∀ (w value : Nat) (b : BitVec w), asmNum w value = some b ↔ b.toNat = value) ∧
  (∀ items start bytes image, asmItem items start (.db bytes) = some image ↔
    image.map BitVec.toNat = bytes)

/-! ### Invariants -/

/-- R26, R14, R22: the state after reset satisfies the invariant. -/
def Obligations.ResetSatisfiesInvariant : Prop := Inv State.reset

/-- R14, R22, R168 and the canonical form of memory: every cycle from every state that satisfies the
invariant ends in one that does. -/
def Obligations.CycleKeepsInvariant : Prop :=
  ∀ s t : State, Inv s → step s = .next t → Inv t

/-- R140, R14, R22: every sequence of host operations and cycles, from every state that satisfies
the invariant and with every admissible choice of the parameters of R4, runs to its end in a state
that does. -/
def Obligations.HostRunKeepsInvariant : Prop :=
  ∀ (c : Config) (actions : List HostAction) (s : State), c.Valid → Inv s →
    ∃ t, hostRun c actions s = .next t ∧ Inv t

/-! ### Reset and host operations (spec/70_reset_and_hazards.md, spec/47_host_operations.md) -/

/-- R26, R180 (D1, D2, D25; log 1, log 2): the values after reset, with the default parameters. -/
def Obligations.ResetValues : Prop :=
  (∀ a, a < 4096 → State.reset.mem.read a = if a < 80 then fontTable.getD a 0 else 0) ∧
  (∀ r : RegIdx, State.reset.reg r = 0) ∧ (∀ k : Fin 16, State.reset.stack[k] = 0) ∧
  (∀ k : KeyIdx, State.reset.key k = false) ∧
  (∀ px py, px ≤ 63 → py ≤ 31 → State.reset.fb.pixel px py = false) ∧
  State.reset.i = 0 ∧ State.reset.sp = 0 ∧ State.reset.dt = 0 ∧ State.reset.st = 0 ∧
  State.reset.pc.toNat = 0x200 ∧ State.reset.dp = true ∧
  State.reset.fault = { cause := .none, pc := 0, addr := 0 }

/-- R180, R141: RESET does not depend on the state before (but for the model's own count of draws,
log 3), for every choice of the parameters; it starts at `PROG_BASE` with the font or zeros in the
font region and zeros elsewhere; with the defaults it gives `State.reset`. -/
def Obligations.ResetForgetsTheStateBefore : Prop :=
  (∀ (c : Config) (s t : State),
    hostReset c s = { hostReset c t with rndCount := s.rndCount }) ∧
  (∀ (c : Config) (s : State) (a : Nat), c.Valid → a < 4096 →
    (hostReset c s).mem.read a =
      if c.fontPresent = true ∧ a < 80 then c.fontData.getD a 0 else 0) ∧
  (∀ (c : Config) (s : State), c.Valid → (hostReset c s).pc.toNat = c.progBase) ∧
  hostReset Config.standard State.reset = State.reset

/-- R142 (D17; source example S1): LOAD succeeds exactly when the image has at most `PROG_MAX`
bytes; then byte i is at `PROG_BASE` + i, and no other byte and no other state is touched. -/
def Obligations.LoadCopiesOrRefusesTheWholeImage : Prop :=
  ∀ (c : Config) (s : State) (bytes : List Byte), c.Valid → s.mem.wf →
    (bytes.length ≤ 4096 - c.progBase → ∃ t, hostLoad c bytes s = .ok t ∧
      (∀ i, (h : i < bytes.length) → t.mem.read (c.progBase + i) = bytes[i]) ∧
      SameMemoryOutside c.progBase bytes.length s t ∧ t = { s with mem := t.mem }) ∧
    (bytes.length > 4096 - c.progBase →
      hostLoad c bytes s = .error .capacityExceeded ∧
      hostAct c (.load bytes) s = .next (.loadFailed .capacityExceeded, s))

/-- R146: DRAWTAKE returns `DP` and clears it; "a DRAWTAKE returns 1 exactly when at least one `CLS`
or `DRW` completed, or a reset happened, since the previous DRAWTAKE". -/
def Obligations.DrawTakeReportsDrawsSinceTheLastTake : Prop :=
  ∀ (c : Config) (actions : List HostAction) (s t u v : State) (b b' : Bool),
    (∀ a ∈ actions, a ≠ .drawTake) →
    hostAct c .drawTake s = .next (.drawPending b, t) → hostRun c actions t = .next u →
    hostAct c .drawTake u = .next (.drawPending b', v) →
    b = s.dp ∧ t = { s with dp := false } ∧
      (b' = true ↔ ∃ before a after w, actions = before ++ a :: after ∧
        hostRun c before t = .next w ∧ setsDrawPending a w)

/-- R143, R145, R148, R23 (D16, D19, D21): KEYSET writes one bit of the latch; FBREAD and STATUS
change nothing, and return the pixels (in linear order pixel (`px`, `py`) at `py * 64 + px`), the
fault latch, the timers and the derived outputs; the number STATUS gives for each cause is its code of
R22 and table X1 (R160; D5). -/
def Obligations.KeySetAndHostReads : Prop :=
  ∀ (c : Config) (s : State),
    (∀ (k : KeyIdx) (p : Bool), ∃ t, hostAct c (.keySet k p) s = .next (.done, t) ∧ t.key k = p ∧
      (∀ j, j ≠ k → t.key j = s.key j) ∧ t = { s with keys := t.keys }) ∧
    (∃ g, hostAct c .fbRead s = .next (.grid g, s) ∧ g = s.fb) ∧
    (∀ px py, px ≤ 63 → py ≤ 31 → hostFbLinear s (py * 64 + px) = s.fb.pixel px py) ∧
    (∃ r, hostAct c .status s = .next (.status r, s) ∧ (r.cause = 0 ↔ Running s) ∧
      (s.fault.cause = .none → r.cause.toNat = 0) ∧
      (s.fault.cause = .stackOverflow → r.cause.toNat = 1) ∧
      (s.fault.cause = .stackUnderflow → r.cause.toNat = 2) ∧
      (s.fault.cause = .memFetch → r.cause.toNat = 3) ∧
      (s.fault.cause = .memData → r.cause.toNat = 4) ∧
      r.pc = s.fault.pc ∧ r.addr = s.fault.addr ∧ r.dt = s.dt ∧ r.st = s.st ∧
      (r.dtZero = true ↔ s.dt.toNat = 0) ∧ (r.stZero = true ↔ s.st.toNat = 0) ∧
      (r.sndActive = true ↔ s.st.toNat ≠ 0))

/-! ### Runs -/

/-- R185 (D22), R66: from a self-jump every cycle completes and only the timers count on, to 0; the
beep is raised in the cycle in which `ST` becomes 1, and only there. -/
def Obligations.SelfJumpOnlyCountsTimersDown : Prop :=
  ∀ (k : Nat) (s : State), AtSelfJump s → ∃ t, cycles (k + 1) s = .next t ∧
    t.dt.toNat = s.dt.toNat - (k + 1) ∧ t.st.toNat = s.st.toNat - (k + 1) ∧
    (t.beep = true ↔ s.st.toNat = k + 2) ∧
    t = { s with dt := t.dt, st := t.st, beep := t.beep } ∧ AtSelfJump t

/-- R182, R62, R68, R163 (D3): a running core over zeros executes no-ops, each of which adds 2 to `PC`
and ticks the timers. From any running state whose bytes from `PC` up to 0xFFF are zero it runs up to
the end of memory, where the cycle after the last no-op takes MemFault.Fetch. (The run of R182, 1792
no-ops after reset, is the case of `PC` = 0x200.) -/
def Obligations.ZeroBytesRunOffTheEnd : Prop :=
  (∀ s : State, Running s → s.pc.toNat ≤ 0xFFE → s.mem.read s.pc.toNat = 0 →
    s.mem.read (s.pc.toNat + 1) = 0 → step s = .next { s with pc := s.pc + 2 }.tick) ∧
  (∀ (k : Nat) (s : State), Running s →
    (∀ a, s.pc.toNat ≤ a → a ≤ 0xFFF → s.mem.read a = 0) → s.pc.toNat + 2 * k ≤ 0xFFE →
    ∃ t, cycles (k + 1) s = .next t ∧ t.pc.toNat = s.pc.toNat + 2 * (k + 1) ∧
      t.dt.toNat = s.dt.toNat - (k + 1) ∧ t.st.toNat = s.st.toNat - (k + 1) ∧
      (t.beep = true ↔ s.st.toNat = k + 2) ∧
      t = { s with pc := t.pc, dt := t.dt, st := t.st, beep := t.beep } ∧
      (t.pc.toNat > 0xFFE → ∃ u, cycles (k + 2) s = .next u ∧ u.fault.cause = .memFetch ∧
        u.fault.pc = t.pc ∧ u.fault.addr.toNat = 0x1000 ∧
        u = { t with fault := u.fault, beep := false }))

/-- R169 (D5): "`FAULT` is written at most once between resets": in a run without a RESET that
starts with a fault recorded, `FAULT` and everything but memory from `PROG_BASE` up, the keys, `DP`
and the model's own output stay. -/
def Obligations.OnlyResetLeavesTheHalt : Prop :=
  ∀ (c : Config) (actions : List HostAction) (s t : State), ¬ Running s →
    (∀ a ∈ actions, a ≠ .reset) → hostRun c actions s = .next t →
    t = { s with mem := t.mem, keys := t.keys, dp := t.dp, beep := t.beep, rndPort := t.rndPort } ∧
      ∀ a, a < c.progBase → t.mem.read a = s.mem.read a
end

