-- ==== Sys2Proof/Laws/State.lean ====
section
/-!
SUPPORT. Small lemmas of the state updates: one per field per update, and the derived updates in
terms of the basic ones, so that no proof unfolds a record update.
-/

namespace Sys2Proof.Machine

/-! ### `State.setReg` -/

@[simp] theorem setReg_mem (s : State) (r : RegIdx) (b : Byte) : (s.setReg r b).mem = s.mem := rfl
@[simp] theorem setReg_v (s : State) (r : RegIdx) (b : Byte) : (s.setReg r b).v = s.v.set r b := rfl
@[simp] theorem setReg_i (s : State) (r : RegIdx) (b : Byte) : (s.setReg r b).i = s.i := rfl
@[simp] theorem setReg_pc (s : State) (r : RegIdx) (b : Byte) : (s.setReg r b).pc = s.pc := rfl
@[simp] theorem setReg_stack (s : State) (r : RegIdx) (b : Byte) :
    (s.setReg r b).stack = s.stack := rfl
@[simp] theorem setReg_sp (s : State) (r : RegIdx) (b : Byte) : (s.setReg r b).sp = s.sp := rfl
@[simp] theorem setReg_keys (s : State) (r : RegIdx) (b : Byte) :
    (s.setReg r b).keys = s.keys := rfl
@[simp] theorem setReg_dt (s : State) (r : RegIdx) (b : Byte) : (s.setReg r b).dt = s.dt := rfl
@[simp] theorem setReg_st (s : State) (r : RegIdx) (b : Byte) : (s.setReg r b).st = s.st := rfl
@[simp] theorem setReg_fb (s : State) (r : RegIdx) (b : Byte) : (s.setReg r b).fb = s.fb := rfl
@[simp] theorem setReg_dp (s : State) (r : RegIdx) (b : Byte) : (s.setReg r b).dp = s.dp := rfl
@[simp] theorem setReg_fault (s : State) (r : RegIdx) (b : Byte) :
    (s.setReg r b).fault = s.fault := rfl
@[simp] theorem setReg_beep (s : State) (r : RegIdx) (b : Byte) :
    (s.setReg r b).beep = s.beep := rfl
@[simp] theorem setReg_rndPort (s : State) (r : RegIdx) (b : Byte) :
    (s.setReg r b).rndPort = s.rndPort := rfl
@[simp] theorem setReg_rndCount (s : State) (r : RegIdx) (b : Byte) :
    (s.setReg r b).rndCount = s.rndCount := rfl

/-! ### `State.setI` -/

@[simp] theorem setI_mem (s : State) (w : Word) : (s.setI w).mem = s.mem := rfl
@[simp] theorem setI_v (s : State) (w : Word) : (s.setI w).v = s.v := rfl
@[simp] theorem setI_i (s : State) (w : Word) : (s.setI w).i = w := rfl
@[simp] theorem setI_pc (s : State) (w : Word) : (s.setI w).pc = s.pc := rfl
@[simp] theorem setI_stack (s : State) (w : Word) : (s.setI w).stack = s.stack := rfl
@[simp] theorem setI_sp (s : State) (w : Word) : (s.setI w).sp = s.sp := rfl
@[simp] theorem setI_keys (s : State) (w : Word) : (s.setI w).keys = s.keys := rfl
@[simp] theorem setI_dt (s : State) (w : Word) : (s.setI w).dt = s.dt := rfl
@[simp] theorem setI_st (s : State) (w : Word) : (s.setI w).st = s.st := rfl
@[simp] theorem setI_fb (s : State) (w : Word) : (s.setI w).fb = s.fb := rfl
@[simp] theorem setI_dp (s : State) (w : Word) : (s.setI w).dp = s.dp := rfl
@[simp] theorem setI_fault (s : State) (w : Word) : (s.setI w).fault = s.fault := rfl
@[simp] theorem setI_beep (s : State) (w : Word) : (s.setI w).beep = s.beep := rfl
@[simp] theorem setI_rndPort (s : State) (w : Word) : (s.setI w).rndPort = s.rndPort := rfl
@[simp] theorem setI_rndCount (s : State) (w : Word) : (s.setI w).rndCount = s.rndCount := rfl

/-! ### `State.setPc` -/

@[simp] theorem setPc_mem (s : State) (w : Word) : (s.setPc w).mem = s.mem := rfl
@[simp] theorem setPc_v (s : State) (w : Word) : (s.setPc w).v = s.v := rfl
@[simp] theorem setPc_i (s : State) (w : Word) : (s.setPc w).i = s.i := rfl
@[simp] theorem setPc_pc (s : State) (w : Word) : (s.setPc w).pc = w := rfl
@[simp] theorem setPc_stack (s : State) (w : Word) : (s.setPc w).stack = s.stack := rfl
@[simp] theorem setPc_sp (s : State) (w : Word) : (s.setPc w).sp = s.sp := rfl
@[simp] theorem setPc_keys (s : State) (w : Word) : (s.setPc w).keys = s.keys := rfl
@[simp] theorem setPc_dt (s : State) (w : Word) : (s.setPc w).dt = s.dt := rfl
@[simp] theorem setPc_st (s : State) (w : Word) : (s.setPc w).st = s.st := rfl
@[simp] theorem setPc_fb (s : State) (w : Word) : (s.setPc w).fb = s.fb := rfl
@[simp] theorem setPc_dp (s : State) (w : Word) : (s.setPc w).dp = s.dp := rfl
@[simp] theorem setPc_fault (s : State) (w : Word) : (s.setPc w).fault = s.fault := rfl
@[simp] theorem setPc_beep (s : State) (w : Word) : (s.setPc w).beep = s.beep := rfl
@[simp] theorem setPc_rndPort (s : State) (w : Word) : (s.setPc w).rndPort = s.rndPort := rfl
@[simp] theorem setPc_rndCount (s : State) (w : Word) : (s.setPc w).rndCount = s.rndCount := rfl

/-! ### `State.setDt` -/

@[simp] theorem setDt_mem (s : State) (b : Byte) : (s.setDt b).mem = s.mem := rfl
@[simp] theorem setDt_v (s : State) (b : Byte) : (s.setDt b).v = s.v := rfl
@[simp] theorem setDt_i (s : State) (b : Byte) : (s.setDt b).i = s.i := rfl
@[simp] theorem setDt_pc (s : State) (b : Byte) : (s.setDt b).pc = s.pc := rfl
@[simp] theorem setDt_stack (s : State) (b : Byte) : (s.setDt b).stack = s.stack := rfl
@[simp] theorem setDt_sp (s : State) (b : Byte) : (s.setDt b).sp = s.sp := rfl
@[simp] theorem setDt_keys (s : State) (b : Byte) : (s.setDt b).keys = s.keys := rfl
@[simp] theorem setDt_dt (s : State) (b : Byte) : (s.setDt b).dt = b := rfl
@[simp] theorem setDt_st (s : State) (b : Byte) : (s.setDt b).st = s.st := rfl
@[simp] theorem setDt_fb (s : State) (b : Byte) : (s.setDt b).fb = s.fb := rfl
@[simp] theorem setDt_dp (s : State) (b : Byte) : (s.setDt b).dp = s.dp := rfl
@[simp] theorem setDt_fault (s : State) (b : Byte) : (s.setDt b).fault = s.fault := rfl
@[simp] theorem setDt_beep (s : State) (b : Byte) : (s.setDt b).beep = s.beep := rfl
@[simp] theorem setDt_rndPort (s : State) (b : Byte) : (s.setDt b).rndPort = s.rndPort := rfl
@[simp] theorem setDt_rndCount (s : State) (b : Byte) : (s.setDt b).rndCount = s.rndCount := rfl

/-! ### `State.setSt` -/

@[simp] theorem setSt_mem (s : State) (b : Byte) : (s.setSt b).mem = s.mem := rfl
@[simp] theorem setSt_v (s : State) (b : Byte) : (s.setSt b).v = s.v := rfl
@[simp] theorem setSt_i (s : State) (b : Byte) : (s.setSt b).i = s.i := rfl
@[simp] theorem setSt_pc (s : State) (b : Byte) : (s.setSt b).pc = s.pc := rfl
@[simp] theorem setSt_stack (s : State) (b : Byte) : (s.setSt b).stack = s.stack := rfl
@[simp] theorem setSt_sp (s : State) (b : Byte) : (s.setSt b).sp = s.sp := rfl
@[simp] theorem setSt_keys (s : State) (b : Byte) : (s.setSt b).keys = s.keys := rfl
@[simp] theorem setSt_dt (s : State) (b : Byte) : (s.setSt b).dt = s.dt := rfl
@[simp] theorem setSt_st (s : State) (b : Byte) : (s.setSt b).st = b := rfl
@[simp] theorem setSt_fb (s : State) (b : Byte) : (s.setSt b).fb = s.fb := rfl
@[simp] theorem setSt_dp (s : State) (b : Byte) : (s.setSt b).dp = s.dp := rfl
@[simp] theorem setSt_fault (s : State) (b : Byte) : (s.setSt b).fault = s.fault := rfl
@[simp] theorem setSt_beep (s : State) (b : Byte) : (s.setSt b).beep = s.beep := rfl
@[simp] theorem setSt_rndPort (s : State) (b : Byte) : (s.setSt b).rndPort = s.rndPort := rfl
@[simp] theorem setSt_rndCount (s : State) (b : Byte) : (s.setSt b).rndCount = s.rndCount := rfl

/-! ### `State.setMem` -/

@[simp] theorem setMem_mem (s : State) (m : Memory) : (s.setMem m).mem = m := rfl
@[simp] theorem setMem_v (s : State) (m : Memory) : (s.setMem m).v = s.v := rfl
@[simp] theorem setMem_i (s : State) (m : Memory) : (s.setMem m).i = s.i := rfl
@[simp] theorem setMem_pc (s : State) (m : Memory) : (s.setMem m).pc = s.pc := rfl
@[simp] theorem setMem_stack (s : State) (m : Memory) : (s.setMem m).stack = s.stack := rfl
@[simp] theorem setMem_sp (s : State) (m : Memory) : (s.setMem m).sp = s.sp := rfl
@[simp] theorem setMem_keys (s : State) (m : Memory) : (s.setMem m).keys = s.keys := rfl
@[simp] theorem setMem_dt (s : State) (m : Memory) : (s.setMem m).dt = s.dt := rfl
@[simp] theorem setMem_st (s : State) (m : Memory) : (s.setMem m).st = s.st := rfl
@[simp] theorem setMem_fb (s : State) (m : Memory) : (s.setMem m).fb = s.fb := rfl
@[simp] theorem setMem_dp (s : State) (m : Memory) : (s.setMem m).dp = s.dp := rfl
@[simp] theorem setMem_fault (s : State) (m : Memory) : (s.setMem m).fault = s.fault := rfl
@[simp] theorem setMem_beep (s : State) (m : Memory) : (s.setMem m).beep = s.beep := rfl
@[simp] theorem setMem_rndPort (s : State) (m : Memory) : (s.setMem m).rndPort = s.rndPort := rfl
@[simp] theorem setMem_rndCount (s : State) (m : Memory) : (s.setMem m).rndCount = s.rndCount := rfl

/-! ### `State.setFb` -/

@[simp] theorem setFb_mem (s : State) (f : Framebuffer) : (s.setFb f).mem = s.mem := rfl
@[simp] theorem setFb_v (s : State) (f : Framebuffer) : (s.setFb f).v = s.v := rfl
@[simp] theorem setFb_i (s : State) (f : Framebuffer) : (s.setFb f).i = s.i := rfl
@[simp] theorem setFb_pc (s : State) (f : Framebuffer) : (s.setFb f).pc = s.pc := rfl
@[simp] theorem setFb_stack (s : State) (f : Framebuffer) : (s.setFb f).stack = s.stack := rfl
@[simp] theorem setFb_sp (s : State) (f : Framebuffer) : (s.setFb f).sp = s.sp := rfl
@[simp] theorem setFb_keys (s : State) (f : Framebuffer) : (s.setFb f).keys = s.keys := rfl
@[simp] theorem setFb_dt (s : State) (f : Framebuffer) : (s.setFb f).dt = s.dt := rfl
@[simp] theorem setFb_st (s : State) (f : Framebuffer) : (s.setFb f).st = s.st := rfl
@[simp] theorem setFb_fb (s : State) (f : Framebuffer) : (s.setFb f).fb = f := rfl
@[simp] theorem setFb_dp (s : State) (f : Framebuffer) : (s.setFb f).dp = s.dp := rfl
@[simp] theorem setFb_fault (s : State) (f : Framebuffer) : (s.setFb f).fault = s.fault := rfl
@[simp] theorem setFb_beep (s : State) (f : Framebuffer) : (s.setFb f).beep = s.beep := rfl
@[simp] theorem setFb_rndPort (s : State) (f : Framebuffer) : (s.setFb f).rndPort = s.rndPort := rfl
@[simp] theorem setFb_rndCount (s : State) (f : Framebuffer) :
    (s.setFb f).rndCount = s.rndCount := rfl

/-! ### `State.setDrawPending` -/

@[simp] theorem setDrawPending_mem (s : State) : (s.setDrawPending).mem = s.mem := rfl
@[simp] theorem setDrawPending_v (s : State) : (s.setDrawPending).v = s.v := rfl
@[simp] theorem setDrawPending_i (s : State) : (s.setDrawPending).i = s.i := rfl
@[simp] theorem setDrawPending_pc (s : State) : (s.setDrawPending).pc = s.pc := rfl
@[simp] theorem setDrawPending_stack (s : State) : (s.setDrawPending).stack = s.stack := rfl
@[simp] theorem setDrawPending_sp (s : State) : (s.setDrawPending).sp = s.sp := rfl
@[simp] theorem setDrawPending_keys (s : State) : (s.setDrawPending).keys = s.keys := rfl
@[simp] theorem setDrawPending_dt (s : State) : (s.setDrawPending).dt = s.dt := rfl
@[simp] theorem setDrawPending_st (s : State) : (s.setDrawPending).st = s.st := rfl
@[simp] theorem setDrawPending_fb (s : State) : (s.setDrawPending).fb = s.fb := rfl
@[simp] theorem setDrawPending_dp (s : State) : (s.setDrawPending).dp = true := rfl
@[simp] theorem setDrawPending_fault (s : State) : (s.setDrawPending).fault = s.fault := rfl
@[simp] theorem setDrawPending_beep (s : State) : (s.setDrawPending).beep = s.beep := rfl
@[simp] theorem setDrawPending_rndPort (s : State) : (s.setDrawPending).rndPort = s.rndPort := rfl
@[simp] theorem setDrawPending_rndCount (s : State) :
    (s.setDrawPending).rndCount = s.rndCount := rfl

/-! ### `State.push` -/

@[simp] theorem push_mem (s : State) (w : Word) (h : s.sp.val < spMax) :
    (s.push w h).mem = s.mem := rfl
@[simp] theorem push_v (s : State) (w : Word) (h : s.sp.val < spMax) :
    (s.push w h).v = s.v := rfl
@[simp] theorem push_i (s : State) (w : Word) (h : s.sp.val < spMax) :
    (s.push w h).i = s.i := rfl
@[simp] theorem push_pc (s : State) (w : Word) (h : s.sp.val < spMax) :
    (s.push w h).pc = s.pc := rfl
@[simp] theorem push_stack (s : State) (w : Word) (h : s.sp.val < spMax) :
    (s.push w h).stack = s.stack.set s.sp.val w h := rfl
@[simp] theorem push_sp (s : State) (w : Word) (h : s.sp.val < spMax) :
    (s.push w h).sp = ⟨s.sp.val + 1, Nat.succ_lt_succ h⟩ := rfl
@[simp] theorem push_keys (s : State) (w : Word) (h : s.sp.val < spMax) :
    (s.push w h).keys = s.keys := rfl
@[simp] theorem push_dt (s : State) (w : Word) (h : s.sp.val < spMax) :
    (s.push w h).dt = s.dt := rfl
@[simp] theorem push_st (s : State) (w : Word) (h : s.sp.val < spMax) :
    (s.push w h).st = s.st := rfl
@[simp] theorem push_fb (s : State) (w : Word) (h : s.sp.val < spMax) :
    (s.push w h).fb = s.fb := rfl
@[simp] theorem push_dp (s : State) (w : Word) (h : s.sp.val < spMax) :
    (s.push w h).dp = s.dp := rfl
@[simp] theorem push_fault (s : State) (w : Word) (h : s.sp.val < spMax) :
    (s.push w h).fault = s.fault := rfl
@[simp] theorem push_beep (s : State) (w : Word) (h : s.sp.val < spMax) :
    (s.push w h).beep = s.beep := rfl
@[simp] theorem push_rndPort (s : State) (w : Word) (h : s.sp.val < spMax) :
    (s.push w h).rndPort = s.rndPort := rfl
@[simp] theorem push_rndCount (s : State) (w : Word) (h : s.sp.val < spMax) :
    (s.push w h).rndCount = s.rndCount := rfl

/-! ### `State.pop` -/

@[simp] theorem pop_mem (s : State) : (s.pop).mem = s.mem := rfl
@[simp] theorem pop_v (s : State) : (s.pop).v = s.v := rfl
@[simp] theorem pop_i (s : State) : (s.pop).i = s.i := rfl
@[simp] theorem pop_pc (s : State) : (s.pop).pc = s.pc := rfl
@[simp] theorem pop_stack (s : State) : (s.pop).stack = s.stack := rfl
@[simp] theorem pop_sp (s : State) :
    (s.pop).sp = ⟨s.sp.val - 1, Nat.lt_of_le_of_lt (Nat.sub_le _ _) s.sp.isLt⟩ := rfl
@[simp] theorem pop_keys (s : State) : (s.pop).keys = s.keys := rfl
@[simp] theorem pop_dt (s : State) : (s.pop).dt = s.dt := rfl
@[simp] theorem pop_st (s : State) : (s.pop).st = s.st := rfl
@[simp] theorem pop_fb (s : State) : (s.pop).fb = s.fb := rfl
@[simp] theorem pop_dp (s : State) : (s.pop).dp = s.dp := rfl
@[simp] theorem pop_fault (s : State) : (s.pop).fault = s.fault := rfl
@[simp] theorem pop_beep (s : State) : (s.pop).beep = s.beep := rfl
@[simp] theorem pop_rndPort (s : State) : (s.pop).rndPort = s.rndPort := rfl
@[simp] theorem pop_rndCount (s : State) : (s.pop).rndCount = s.rndCount := rfl

/-! ### `State.raise` -/

@[simp] theorem raise_mem (s : State) (c : FaultCause) (a : Nat) : (s.raise c a).mem = s.mem := rfl
@[simp] theorem raise_v (s : State) (c : FaultCause) (a : Nat) : (s.raise c a).v = s.v := rfl
@[simp] theorem raise_i (s : State) (c : FaultCause) (a : Nat) : (s.raise c a).i = s.i := rfl
@[simp] theorem raise_pc (s : State) (c : FaultCause) (a : Nat) : (s.raise c a).pc = s.pc := rfl
@[simp] theorem raise_stack (s : State) (c : FaultCause) (a : Nat) :
    (s.raise c a).stack = s.stack := rfl
@[simp] theorem raise_sp (s : State) (c : FaultCause) (a : Nat) : (s.raise c a).sp = s.sp := rfl
@[simp] theorem raise_keys (s : State) (c : FaultCause) (a : Nat) :
    (s.raise c a).keys = s.keys := rfl
@[simp] theorem raise_dt (s : State) (c : FaultCause) (a : Nat) : (s.raise c a).dt = s.dt := rfl
@[simp] theorem raise_st (s : State) (c : FaultCause) (a : Nat) : (s.raise c a).st = s.st := rfl
@[simp] theorem raise_fb (s : State) (c : FaultCause) (a : Nat) : (s.raise c a).fb = s.fb := rfl
@[simp] theorem raise_dp (s : State) (c : FaultCause) (a : Nat) : (s.raise c a).dp = s.dp := rfl
@[simp] theorem raise_fault (s : State) (c : FaultCause) (a : Nat) :
    (s.raise c a).fault = { cause := c, pc := s.pc, addr := BitVec.ofNat 17 a } := rfl
@[simp] theorem raise_beep (s : State) (c : FaultCause) (a : Nat) :
    (s.raise c a).beep = false := rfl
@[simp] theorem raise_rndPort (s : State) (c : FaultCause) (a : Nat) :
    (s.raise c a).rndPort = s.rndPort := rfl
@[simp] theorem raise_rndCount (s : State) (c : FaultCause) (a : Nat) :
    (s.raise c a).rndCount = s.rndCount := rfl

/-! ### `State.clearFault` -/

@[simp] theorem clearFault_mem (s : State) : (s.clearFault).mem = s.mem := rfl
@[simp] theorem clearFault_v (s : State) : (s.clearFault).v = s.v := rfl
@[simp] theorem clearFault_i (s : State) : (s.clearFault).i = s.i := rfl
@[simp] theorem clearFault_pc (s : State) : (s.clearFault).pc = s.pc := rfl
@[simp] theorem clearFault_stack (s : State) : (s.clearFault).stack = s.stack := rfl
@[simp] theorem clearFault_sp (s : State) : (s.clearFault).sp = s.sp := rfl
@[simp] theorem clearFault_keys (s : State) : (s.clearFault).keys = s.keys := rfl
@[simp] theorem clearFault_dt (s : State) : (s.clearFault).dt = s.dt := rfl
@[simp] theorem clearFault_st (s : State) : (s.clearFault).st = s.st := rfl
@[simp] theorem clearFault_fb (s : State) : (s.clearFault).fb = s.fb := rfl
@[simp] theorem clearFault_dp (s : State) : (s.clearFault).dp = s.dp := rfl
@[simp] theorem clearFault_fault (s : State) : (s.clearFault).fault = FaultLatch.clear := rfl
@[simp] theorem clearFault_beep (s : State) : (s.clearFault).beep = s.beep := rfl
@[simp] theorem clearFault_rndPort (s : State) : (s.clearFault).rndPort = s.rndPort := rfl
@[simp] theorem clearFault_rndCount (s : State) : (s.clearFault).rndCount = s.rndCount := rfl

/-! ### `State.idle` -/

@[simp] theorem idle_mem (s : State) : (s.idle).mem = s.mem := rfl
@[simp] theorem idle_v (s : State) : (s.idle).v = s.v := rfl
@[simp] theorem idle_i (s : State) : (s.idle).i = s.i := rfl
@[simp] theorem idle_pc (s : State) : (s.idle).pc = s.pc := rfl
@[simp] theorem idle_stack (s : State) : (s.idle).stack = s.stack := rfl
@[simp] theorem idle_sp (s : State) : (s.idle).sp = s.sp := rfl
@[simp] theorem idle_keys (s : State) : (s.idle).keys = s.keys := rfl
@[simp] theorem idle_dt (s : State) : (s.idle).dt = s.dt := rfl
@[simp] theorem idle_st (s : State) : (s.idle).st = s.st := rfl
@[simp] theorem idle_fb (s : State) : (s.idle).fb = s.fb := rfl
@[simp] theorem idle_dp (s : State) : (s.idle).dp = s.dp := rfl
@[simp] theorem idle_fault (s : State) : (s.idle).fault = s.fault := rfl
@[simp] theorem idle_beep (s : State) : (s.idle).beep = false := rfl
@[simp] theorem idle_rndPort (s : State) : (s.idle).rndPort = s.rndPort := rfl
@[simp] theorem idle_rndCount (s : State) : (s.idle).rndCount = s.rndCount := rfl

/-! ### `State.tick` -/

@[simp] theorem tick_mem (s : State) : (s.tick).mem = s.mem := rfl
@[simp] theorem tick_v (s : State) : (s.tick).v = s.v := rfl
@[simp] theorem tick_i (s : State) : (s.tick).i = s.i := rfl
@[simp] theorem tick_pc (s : State) : (s.tick).pc = s.pc := rfl
@[simp] theorem tick_stack (s : State) : (s.tick).stack = s.stack := rfl
@[simp] theorem tick_sp (s : State) : (s.tick).sp = s.sp := rfl
@[simp] theorem tick_keys (s : State) : (s.tick).keys = s.keys := rfl
@[simp] theorem tick_dt (s : State) : (s.tick).dt = countDown s.dt := rfl
@[simp] theorem tick_st (s : State) : (s.tick).st = countDown s.st := rfl
@[simp] theorem tick_fb (s : State) : (s.tick).fb = s.fb := rfl
@[simp] theorem tick_dp (s : State) : (s.tick).dp = s.dp := rfl
@[simp] theorem tick_fault (s : State) : (s.tick).fault = s.fault := rfl
@[simp] theorem tick_beep (s : State) : (s.tick).beep = (s.st != 0 && countDown s.st == 1) := rfl
@[simp] theorem tick_rndPort (s : State) : (s.tick).rndPort = s.rndPort := rfl
@[simp] theorem tick_rndCount (s : State) : (s.tick).rndCount = s.rndCount := rfl

/-! ### `State.rndDrawn` -/

@[simp] theorem rndDrawn_mem (s : State) : (s.rndDrawn).mem = s.mem := rfl
@[simp] theorem rndDrawn_v (s : State) : (s.rndDrawn).v = s.v := rfl
@[simp] theorem rndDrawn_i (s : State) : (s.rndDrawn).i = s.i := rfl
@[simp] theorem rndDrawn_pc (s : State) : (s.rndDrawn).pc = s.pc := rfl
@[simp] theorem rndDrawn_stack (s : State) : (s.rndDrawn).stack = s.stack := rfl
@[simp] theorem rndDrawn_sp (s : State) : (s.rndDrawn).sp = s.sp := rfl
@[simp] theorem rndDrawn_keys (s : State) : (s.rndDrawn).keys = s.keys := rfl
@[simp] theorem rndDrawn_dt (s : State) : (s.rndDrawn).dt = s.dt := rfl
@[simp] theorem rndDrawn_st (s : State) : (s.rndDrawn).st = s.st := rfl
@[simp] theorem rndDrawn_fb (s : State) : (s.rndDrawn).fb = s.fb := rfl
@[simp] theorem rndDrawn_dp (s : State) : (s.rndDrawn).dp = s.dp := rfl
@[simp] theorem rndDrawn_fault (s : State) : (s.rndDrawn).fault = s.fault := rfl
@[simp] theorem rndDrawn_beep (s : State) : (s.rndDrawn).beep = s.beep := rfl
@[simp] theorem rndDrawn_rndPort (s : State) : (s.rndDrawn).rndPort = s.rndPort := rfl
@[simp] theorem rndDrawn_rndCount (s : State) : (s.rndDrawn).rndCount = s.rndCount + 1 := rfl

/-! ### `State.setRndPort` -/

@[simp] theorem setRndPort_mem (s : State) (b : Option Byte) : (s.setRndPort b).mem = s.mem := rfl
@[simp] theorem setRndPort_v (s : State) (b : Option Byte) : (s.setRndPort b).v = s.v := rfl
@[simp] theorem setRndPort_i (s : State) (b : Option Byte) : (s.setRndPort b).i = s.i := rfl
@[simp] theorem setRndPort_pc (s : State) (b : Option Byte) : (s.setRndPort b).pc = s.pc := rfl
@[simp] theorem setRndPort_stack (s : State) (b : Option Byte) :
    (s.setRndPort b).stack = s.stack := rfl
@[simp] theorem setRndPort_sp (s : State) (b : Option Byte) : (s.setRndPort b).sp = s.sp := rfl
@[simp] theorem setRndPort_keys (s : State) (b : Option Byte) :
    (s.setRndPort b).keys = s.keys := rfl
@[simp] theorem setRndPort_dt (s : State) (b : Option Byte) : (s.setRndPort b).dt = s.dt := rfl
@[simp] theorem setRndPort_st (s : State) (b : Option Byte) : (s.setRndPort b).st = s.st := rfl
@[simp] theorem setRndPort_fb (s : State) (b : Option Byte) : (s.setRndPort b).fb = s.fb := rfl
@[simp] theorem setRndPort_dp (s : State) (b : Option Byte) : (s.setRndPort b).dp = s.dp := rfl
@[simp] theorem setRndPort_fault (s : State) (b : Option Byte) :
    (s.setRndPort b).fault = s.fault := rfl
@[simp] theorem setRndPort_beep (s : State) (b : Option Byte) :
    (s.setRndPort b).beep = s.beep := rfl
@[simp] theorem setRndPort_rndPort (s : State) (b : Option Byte) :
    (s.setRndPort b).rndPort = b := rfl
@[simp] theorem setRndPort_rndCount (s : State) (b : Option Byte) :
    (s.setRndPort b).rndCount = s.rndCount := rfl

/-! ### Derived updates -/

@[simp] theorem advance_eq (s : State) : s.advance = s.setPc (s.pc + 2) := rfl
@[simp] theorem skipIf_eq (s : State) (c : Bool) :
    s.skipIf c = s.setPc (if c then s.pc + 4 else s.pc + 2) := rfl
@[simp] theorem store_eq (s : State) (a : Nat) (bs : List Byte) :
    s.store a bs = s.setMem (s.mem.writeBytes a bs) := rfl
@[simp] theorem setFlagThenReg_eq (s : State) (f : Byte) (x : RegIdx) (b : Byte) :
    s.setFlagThenReg f x b = (s.setReg vf f).setReg x b := rfl
@[simp] theorem placeWord_eq (s : State) (a : Nat) (op : Word) :
    s.placeWord a op = s.setMem (s.mem.writeBytes a [hiByte op, loByte op]) := rfl

/-! ### The configured ranges in numbers (R4, D4, D9) -/

theorem spMax_eq : spMax = 16 := rfl

theorem spriteWidth_eq : spriteWidth = 8 := rfl

/-- `SP` is a number 0 to 16 (R16). -/
theorem sp_le (s : State) : s.sp.val ≤ 16 := Nat.le_of_lt_succ s.sp.isLt

/-- An entry is free exactly when `SP` is not 16 (R16, R161). -/
theorem sp_lt_spMax_iff (s : State) : s.sp.val < spMax ↔ s.sp ≠ 16 := by
  have h : s.sp = 16 ↔ s.sp.val = 16 := Fin.ext_iff
  have := sp_le s
  show s.sp.val < 16 ↔ ¬ s.sp = 16
  rw [h]
  omega

/-! ### Reading a register after a write (R11) -/

theorem reg_eq (s : State) (r : RegIdx) : s.reg r = s.v[r] := rfl

@[simp] theorem reg_setReg_same (s : State) (r : RegIdx) (b : Byte) : (s.setReg r b).reg r = b := by
  simp [State.reg]

theorem reg_setReg_ne (s : State) {q r : RegIdx} (b : Byte) (h : q ≠ r) :
    (s.setReg r b).reg q = s.reg q := by
  have h' : r.val ≠ q.val := fun e => h (Fin.ext e.symm)
  simp [State.reg, h']

theorem reg_setReg (s : State) (q r : RegIdx) (b : Byte) :
    (s.setReg r b).reg q = if q = r then b else s.reg q := by
  split
  · next h => subst h; exact reg_setReg_same s q b
  · next h => exact reg_setReg_ne s b h

/-- A register reads as before after any update that keeps the register file. -/
theorem reg_congr {s t : State} (h : t.v = s.v) (q : RegIdx) : t.reg q = s.reg q := by
  simp [State.reg, h]

@[simp] theorem reg_setI (s : State) (w : Word) (q : RegIdx) : (s.setI w).reg q = s.reg q := rfl
@[simp] theorem reg_setPc (s : State) (w : Word) (q : RegIdx) : (s.setPc w).reg q = s.reg q := rfl
@[simp] theorem reg_setDt (s : State) (b : Byte) (q : RegIdx) : (s.setDt b).reg q = s.reg q := rfl
@[simp] theorem reg_setSt (s : State) (b : Byte) (q : RegIdx) : (s.setSt b).reg q = s.reg q := rfl
@[simp] theorem reg_setMem (s : State) (m : Memory) (q : RegIdx) : (s.setMem m).reg q = s.reg q := rfl
@[simp] theorem reg_setFb (s : State) (f : Framebuffer) (q : RegIdx) : (s.setFb f).reg q = s.reg q := rfl
@[simp] theorem reg_setDrawPending (s : State) (q : RegIdx) : (s.setDrawPending).reg q = s.reg q := rfl
@[simp] theorem reg_push (s : State) (w : Word) (h : s.sp.val < spMax) (q : RegIdx) : (s.push w h).reg q = s.reg q := rfl
@[simp] theorem reg_pop (s : State) (q : RegIdx) : (s.pop).reg q = s.reg q := rfl
@[simp] theorem reg_raise (s : State) (c : FaultCause) (a : Nat) (q : RegIdx) : (s.raise c a).reg q = s.reg q := rfl
@[simp] theorem reg_clearFault (s : State) (q : RegIdx) : (s.clearFault).reg q = s.reg q := rfl
@[simp] theorem reg_idle (s : State) (q : RegIdx) : (s.idle).reg q = s.reg q := rfl
@[simp] theorem reg_tick (s : State) (q : RegIdx) : (s.tick).reg q = s.reg q := rfl
@[simp] theorem reg_rndDrawn (s : State) (q : RegIdx) : (s.rndDrawn).reg q = s.reg q := rfl
@[simp] theorem reg_setRndPort (s : State) (b : Option Byte) (q : RegIdx) : (s.setRndPort b).reg q = s.reg q := rfl

end Sys2Proof.Machine
end

