-- ==== Sys2Proof/Laws/Cycle.lean ====
section
/-!
SUPPORT. The parts of a cycle: what `exec` can answer, what `finishCycle` does, and the inversion
of `step`.
-/

namespace Sys2Proof.Machine

open Sys2Proof.Safety

/-! ### The shared operations of the meanings -/

/-- A range-checked meaning either runs or takes MemFault.Data (R34). -/
theorem withRange_cases (s : State) (len : Nat) (f : State → State) :
    (s.inRange len = true ∧ s.withRange len f = f s) ∨
    (s.inRange len = false ∧ s.withRange len f = s.raise .memData (faultAddr s.i.toNat)) := by
  unfold State.withRange
  cases h : s.inRange len <;> simp

/-- The range check in numbers (R34, R116). -/
theorem inRange_iff (s : State) (len : Nat) :
    s.inRange len = true ↔ len = 0 ∨ s.i.toNat + (len - 1) ≤ 0xFFF := by
  unfold State.inRange
  rw [Bool.or_eq_true, beq_iff_eq, decide_eq_true_eq]
  rfl

/-- The timer tick in numbers (R65). -/
theorem countDown_toNat (b : Byte) : (countDown b).toNat = b.toNat - 1 := by
  unfold countDown
  split
  · next h => simp [h]
  · next h =>
    have hne : b.toNat ≠ 0 := fun e => h (BitVec.eq_of_toNat_eq (by simpa using e))
    have hlt := b.isLt
    rw [BitVec.toNat_sub]
    simp only [BitVec.ofNat_eq_ofNat, BitVec.toNat_ofNat]
    omega

/-- The beep of a tick in numbers (R66): `ST` was 2. -/
theorem tick_beep_iff (s : State) : s.tick.beep = true ↔ s.st.toNat = 2 := by
  have h : (countDown s.st = 1) ↔ s.st.toNat - 1 = 1 := by
    rw [← countDown_toNat, ← BitVec.toNat_inj]; rfl
  have h0 : (s.st = 0) ↔ s.st.toNat = 0 := by
    rw [← BitVec.toNat_inj]; rfl
  simp only [tick_beep, Bool.and_eq_true, bne_iff_ne, ne_eq, beq_iff_eq, h, h0]
  omega

/-- The lowest pressed key is pressed, and no lower one is (R132). -/
theorem lowestKey_some {s : State} {k : Nat} (h : s.lowestKey = some k) :
    ∃ hk : k < 16, s.keys[k] = true ∧ ∀ j, (hj : j < k) → s.keys[j] = false := by
  obtain ⟨hk, hp, hlow⟩ := List.findIdx?_eq_some_iff_getElem.mp h
  have hk' : k < 16 := by simpa using hk
  refine ⟨hk', by simpa using hp, fun j hj => ?_⟩
  simpa using hlow j hj

/-- No lowest key: no key is pressed (R132). -/
theorem lowestKey_none {s : State} : s.lowestKey = none ↔ ∀ k : KeyIdx, s.key k = false := by
  unfold State.lowestKey State.key
  rw [List.findIdx?_eq_none_iff]
  constructor
  · intro h k
    have := h s.keys[k] (by simp)
    simpa using this
  · intro h b hb
    obtain ⟨j, hj, rfl⟩ := List.mem_iff_getElem.mp hb
    have hj' : j < 16 := by simpa using hj
    simpa using h ⟨j, hj'⟩

/-! ### `exec` -/

/-- No instruction ends in a fault or a refusal of the model: `exec` answers a next state. -/
theorem exec_next (i : Instr) (s : State) : ∃ t, exec i s = .next t := by
  cases i
  case ret =>
    show ∃ t, execRet s = .next t
    unfold execRet
    split <;> exact ⟨_, rfl⟩
  case call nnn =>
    show ∃ t, execCall nnn s = .next t
    unfold execCall
    split <;> exact ⟨_, rfl⟩
  case ldVxK x =>
    show ∃ t, execLdVxK x s = .next t
    unfold execLdVxK
    split <;> exact ⟨_, rfl⟩
  all_goals exact ⟨_, rfl⟩

/-! ### `finishCycle` -/

/-- A completed cycle ticks; a faulted or waiting one ends as the instruction left it. -/
theorem finishCycle_cases (i : Instr) (s t : State) :
    ((t.halted = true ∨ waits i s = true) ∧ finishCycle i s t = t) ∨
    (t.halted = false ∧ waits i s = false ∧ finishCycle i s t = t.tick) := by
  unfold finishCycle
  cases t.halted <;> cases waits i s <;> simp

theorem halted_iff (s : State) : s.halted = true ↔ ¬ Running s := by
  simp [State.halted]

theorem halted_eq_false_iff (s : State) : s.halted = false ↔ Running s := by
  simp [State.halted]

theorem fetchFaults_iff (s : State) : s.fetchFaults = true ↔ s.pc.toNat > 0xFFE := by
  simp [State.fetchFaults]

/-! ### `step` -/

/-- Everything a step can do, with the guards (R60, R61, R62). -/
theorem step_cases {s t : State} (h : step s = .next t) :
    (¬ Running s ∧ t = s.idle) ∨
    (Running s ∧ s.pc.toNat > 0xFFE ∧ t = s.raise .memFetch (faultAddr s.pc.toNat)) ∨
    (Running s ∧ s.pc.toNat ≤ 0xFFE ∧
      ∃ u, exec s.fetchInstr s = .next u ∧ t = finishCycle s.fetchInstr s u) := by
  unfold step at h
  split at h
  · next hh =>
    injection h with h
    exact .inl ⟨(halted_iff s).mp hh, h.symm⟩
  · next hh =>
    have hr : Running s := (halted_eq_false_iff s).mp (by simpa using hh)
    split at h
    · next hf =>
      injection h with h
      exact .inr (.inl ⟨hr, (fetchFaults_iff s).mp hf, h.symm⟩)
    · next hf =>
      have hp : s.pc.toNat ≤ 0xFFE := by
        have := mt (fetchFaults_iff s).mpr hf
        omega
      obtain ⟨u, hu⟩ := exec_next s.fetchInstr s
      rw [hu] at h
      injection h with h
      exact .inr (.inr ⟨hr, hp, u, hu, h.symm⟩)

/-- A step of a running core whose fetch is in range, from what `exec` answers. -/
theorem step_exec {s u : State} (hr : Running s) (hp : s.pc.toNat ≤ 0xFFE)
    (hu : exec s.fetchInstr s = .next u) : step s = .next (finishCycle s.fetchInstr s u) := by
  have hf : ¬ s.fetchFaults = true := fun e => by
    have := (fetchFaults_iff s).mp e
    omega
  have hh : ¬ s.halted = true := by simp [(halted_eq_false_iff s).mpr hr]
  unfold step
  rw [if_neg hh, if_neg hf, hu]

end Sys2Proof.Machine
end

