-- ==== Sys2Proof/Laws/Decode.lean ====
section
/-!
SUPPORT. The fields of a word built by a format, and a word built from its fields (tables E1, E2 of
spec/30_encoding.md); words and their bytes (R32).
-/

namespace Sys2Proof

open BitVec

/-! ### The fields of a word in a format -/

@[simp] theorem opG_formatA (g : BitVec 4) (a : BitVec 12) : opG (formatA g a) = g :=
  extractLsb'_append_eq_left

@[simp] theorem opNnn_formatA (g : BitVec 4) (a : BitVec 12) : opNnn (formatA g a) = a :=
  extractLsb'_append_eq_right

@[simp] theorem opG_formatI (g : BitVec 4) (x : RegIdx) (k : Byte) : opG (formatI g x k) = g :=
  (extractLsb'_append_eq_of_le (by decide : 8 ≤ 12)).trans
    (extractLsb'_append_eq_left (a := g) (b := regBits x))

@[simp] theorem opX_formatI (g : BitVec 4) (x : RegIdx) (k : Byte) : opX (formatI g x k) = x :=
  congrArg BitVec.toFin ((extractLsb'_append_eq_of_le (by decide : 8 ≤ 8)).trans
    (extractLsb'_append_eq_right (a := g) (b := regBits x)))

@[simp] theorem opKk_formatI (g : BitVec 4) (x : RegIdx) (k : Byte) : opKk (formatI g x k) = k :=
  extractLsb'_append_eq_right

/-- Formats I and X differ only in whether the low byte is an operand. -/
theorem formatX_eq (g : BitVec 4) (x : RegIdx) (f : Byte) : formatX g x f = formatI g x f := rfl

@[simp] theorem opG_formatR (g : BitVec 4) (x y : RegIdx) (f : BitVec 4) :
    opG (formatR g x y f) = g :=
  (extractLsb'_append_eq_of_le (by decide : 4 ≤ 12)).trans
    ((extractLsb'_append_eq_of_le (by decide : 4 ≤ 8)).trans
      (extractLsb'_append_eq_left (a := g) (b := regBits x)))

@[simp] theorem opX_formatR (g : BitVec 4) (x y : RegIdx) (f : BitVec 4) :
    opX (formatR g x y f) = x :=
  congrArg BitVec.toFin ((extractLsb'_append_eq_of_le (by decide : 4 ≤ 8)).trans
    ((extractLsb'_append_eq_of_le (by decide : 4 ≤ 4)).trans
      (extractLsb'_append_eq_right (a := g) (b := regBits x))))

@[simp] theorem opY_formatR (g : BitVec 4) (x y : RegIdx) (f : BitVec 4) :
    opY (formatR g x y f) = y :=
  congrArg BitVec.toFin ((extractLsb'_append_eq_of_le (by decide : 4 ≤ 4)).trans
    (extractLsb'_append_eq_right (a := g ++ regBits x) (b := regBits y)))

@[simp] theorem opN_formatR (g : BitVec 4) (x y : RegIdx) (f : BitVec 4) :
    opN (formatR g x y f) = f :=
  extractLsb'_append_eq_right

/-- Format D is format R with `n` in the place of the function digit. -/
theorem formatD_eq (x y : RegIdx) (n : BitVec 4) : formatD x y n = formatR 0xD x y n := rfl

/-! ### A word from its fields -/

theorem formatA_fields (op : Word) : formatA (opG op) (opNnn op) = op :=
  (extractLsb'_append_extractLsb'_eq_extractLsb' (x := op) (start₁ := 0) rfl).trans
    extractLsb'_eq_self

theorem regBits_opX (op : Word) : regBits (opX op) = op.extractLsb' 8 4 := rfl
theorem regBits_opY (op : Word) : regBits (opY op) = op.extractLsb' 4 4 := rfl

theorem formatI_fields (op : Word) : formatI (opG op) (opX op) (opKk op) = op := by
  have h : op.extractLsb' 12 4 ++ op.extractLsb' 8 4 = op.extractLsb' 8 (4 + 4) :=
    extractLsb'_append_extractLsb'_eq_extractLsb' rfl
  unfold formatI opG opKk
  rw [regBits_opX, h]
  exact (extractLsb'_append_extractLsb'_eq_extractLsb' (x := op) (start₁ := 0) rfl).trans
    extractLsb'_eq_self

theorem formatR_fields (op : Word) : formatR (opG op) (opX op) (opY op) (opN op) = op := by
  have h : op.extractLsb' 12 4 ++ op.extractLsb' 8 4 = op.extractLsb' 8 (4 + 4) :=
    extractLsb'_append_extractLsb'_eq_extractLsb' rfl
  have h' : op.extractLsb' 8 (4 + 4) ++ op.extractLsb' 4 4 = op.extractLsb' 4 (4 + 4 + 4) :=
    extractLsb'_append_extractLsb'_eq_extractLsb' rfl
  unfold formatR opG opN
  rw [regBits_opX, regBits_opY, h, h']
  exact (extractLsb'_append_extractLsb'_eq_extractLsb' (x := op) (start₁ := 0) rfl).trans
    extractLsb'_eq_self

/-! ### The fields as numbers -/

theorem opG_toNat (op : Word) : (opG op).toNat = op.toNat / 0x1000 := by
  have := op.isLt
  simp only [opG, extractLsb'_toNat, Nat.shiftRight_eq_div_pow]
  omega

theorem opX_val (op : Word) : (opX op).val = op.toNat / 0x100 % 0x10 := by
  show (op.extractLsb' 8 4).toNat = _
  simp only [extractLsb'_toNat, Nat.shiftRight_eq_div_pow]

theorem opY_val (op : Word) : (opY op).val = op.toNat / 0x10 % 0x10 := by
  show (op.extractLsb' 4 4).toNat = _
  simp only [extractLsb'_toNat, Nat.shiftRight_eq_div_pow]

theorem opN_toNat (op : Word) : (opN op).toNat = op.toNat % 0x10 := by
  simp [opN, extractLsb'_toNat]

theorem opKk_toNat (op : Word) : (opKk op).toNat = op.toNat % 0x100 := by
  simp [opKk, extractLsb'_toNat]

theorem opNnn_toNat (op : Word) : (opNnn op).toNat = op.toNat % 0x1000 := by
  simp [opNnn, extractLsb'_toNat]

/-! ### Bytes -/

@[simp] theorem wordOfBytes_bytes (op : Word) : wordOfBytes (hiByte op) (loByte op) = op :=
  (extractLsb'_append_extractLsb'_eq_extractLsb' (x := op) (start₁ := 0) rfl).trans
    extractLsb'_eq_self

@[simp] theorem hiByte_wordOfBytes (hi lo : Byte) : hiByte (wordOfBytes hi lo) = hi :=
  extractLsb'_append_eq_left

@[simp] theorem loByte_wordOfBytes (hi lo : Byte) : loByte (wordOfBytes hi lo) = lo :=
  extractLsb'_append_eq_right

end Sys2Proof
end

