-- ==== Sys2Proof/Laws/Exec.lean ====
section
/-!
SUPPORT. The meanings that branch, one equation per branch, and the equations of `step` and of runs.
The meanings that do not branch are one equation each, true by `rfl`.
-/

namespace Sys2Proof.Machine

open Sys2Proof.Safety

/-! ### Range-checked meanings (R34, R116) -/

theorem withRange_ok {s : State} {len : Nat} {f : State → State}
    (h : len = 0 ∨ s.i.toNat + (len - 1) ≤ 0xFFF) : s.withRange len f = f s := by
  rcases withRange_cases s len f with ⟨_, h2⟩ | ⟨h1, _⟩
  · exact h2
  · rw [(inRange_iff s len).mpr h] at h1
    cases h1

theorem withRange_fault {s : State} {len : Nat} {f : State → State} (h : len ≠ 0)
    (h' : s.i.toNat + (len - 1) > 0xFFF) :
    s.withRange len f = s.raise .memData (max s.i.toNat 0x1000) := by
  rcases withRange_cases s len f with ⟨h1, _⟩ | ⟨_, h2⟩
  · have := (inRange_iff s len).mp h1
    omega
  · exact h2

/-- A range-checked meaning has its effect or takes MemFault.Data. -/
theorem withRange_eq (s : State) (len : Nat) (f : State → State) :
    s.withRange len f = f s ∨ ∃ a, s.withRange len f = s.raise .memData a := by
  rcases withRange_cases s len f with ⟨_, h⟩ | ⟨_, h⟩
  · exact .inl h
  · exact .inr ⟨_, h⟩

/-- A recorded address of at most 17 bits is recorded whole (R22). -/
theorem raise_addr_toNat (s : State) (c : FaultCause) {a : Nat} (h : a < 0x20000) :
    (s.raise c a).fault.addr.toNat = a := by
  simpa using Nat.mod_eq_of_lt h

/-- The recorded address of a memory fault fits 17 bits (R22). -/
theorem faultAddr_lt (w : Word) : max w.toNat 0x1000 < 0x20000 := by
  have := w.isLt
  omega

/-! ### CALL and RET (R80, R82) -/

theorem exec_call_free (nnn : BitVec 12) {s : State} (h : s.sp.val < spMax) :
    exec (.call nnn) s = .next ((s.push (s.pc + 2) h).setPc (addrOf nnn)) := by
  show execCall nnn s = _
  unfold execCall
  rw [dif_pos h]

theorem exec_call_full (nnn : BitVec 12) {s : State} (h : ¬ s.sp.val < spMax) :
    exec (.call nnn) s = .next (s.raise .stackOverflow 0) := by
  show execCall nnn s = _
  unfold execCall
  rw [dif_neg h]

theorem exec_ret_live {s : State} (h : s.sp.val ≠ 0) :
    exec .ret s = .next (s.pop.setPc s.top) := by
  show execRet s = _
  unfold execRet
  rw [if_neg h]

theorem exec_ret_empty {s : State} (h : s.sp.val = 0) :
    exec .ret s = .next (s.raise .stackUnderflow 0) := by
  show execRet s = _
  unfold execRet
  rw [if_pos h]

/-! ### LD Vx, K (R132) -/

theorem exec_ldVxK_wait (x : RegIdx) {s : State} (h : s.lowestKey = none) :
    exec (.ldVxK x) s = .next s.idle := by
  show execLdVxK x s = _
  unfold execLdVxK
  rw [h]

theorem exec_ldVxK_key (x : RegIdx) {s : State} {k : Nat} (h : s.lowestKey = some k) :
    exec (.ldVxK x) s = .next (s.setReg x (BitVec.ofNat 8 k)).advance := by
  show execLdVxK x s = _
  unfold execLdVxK
  rw [h]

/-- The lowest pressed key is the one that is pressed and has only released keys below it. -/
theorem lowestKey_eq {s : State} {k : KeyIdx} (h : s.key k = true)
    (low : ∀ j : KeyIdx, j < k → s.key j = false) : s.lowestKey = some k.val := by
  cases hk : s.lowestKey with
  | none =>
    rw [lowestKey_none.mp hk k] at h
    cases h
  | some m =>
    obtain ⟨hm, hp, hlow⟩ := lowestKey_some hk
    congr 1
    rcases Nat.lt_trichotomy m k.val with hlt | heq | hgt
    · have := low ⟨m, hm⟩ hlt
      rw [show s.key ⟨m, hm⟩ = s.keys[m] from rfl, hp] at this
      cases this
    · exact heq
    · have := hlow k.val hgt
      rw [show s.keys[k.val] = s.key k from rfl, h] at this
      cases this

/-! ### The four memory instructions (R113, R114, R115, R121) -/

theorem exec_ldB_ok (x : RegIdx) {s : State} (h : s.i.toNat ≤ 0xFFD) :
    exec (.ldB x) s = .next (s.store (s.ea 0) (bcdDigits (s.reg x))).advance :=
  congrArg Host.Outcome.next (withRange_ok (.inr (by omega)))

theorem exec_ldB_fault (x : RegIdx) {s : State} (h : s.i.toNat > 0xFFD) :
    exec (.ldB x) s = .next (s.raise .memData (max s.i.toNat 0x1000)) :=
  congrArg Host.Outcome.next (withRange_fault (by decide) (by omega))

theorem exec_stRegs_ok (x : RegIdx) {s : State} (h : s.i.toNat + x.val ≤ 0xFFF) :
    exec (.stRegs x) s = .next (s.store (s.ea 0) (s.regsUpTo x)).advance :=
  congrArg Host.Outcome.next (withRange_ok (.inr (by omega)))

theorem exec_stRegs_fault (x : RegIdx) {s : State} (h : s.i.toNat + x.val > 0xFFF) :
    exec (.stRegs x) s = .next (s.raise .memData (max s.i.toNat 0x1000)) :=
  congrArg Host.Outcome.next (withRange_fault (by omega) (by omega))

theorem exec_ldRegs_ok (x : RegIdx) {s : State} (h : s.i.toNat + x.val ≤ 0xFFF) :
    exec (.ldRegs x) s = .next (s.loadRegsUpTo x).advance :=
  congrArg Host.Outcome.next (withRange_ok (.inr (by omega)))

theorem exec_ldRegs_fault (x : RegIdx) {s : State} (h : s.i.toNat + x.val > 0xFFF) :
    exec (.ldRegs x) s = .next (s.raise .memData (max s.i.toNat 0x1000)) :=
  congrArg Host.Outcome.next (withRange_fault (by omega) (by omega))

theorem exec_drw_ok (x y : RegIdx) {n : BitVec 4} {s : State}
    (h : n = 0 ∨ s.i.toNat + (n.toNat - 1) ≤ 0xFFF) :
    exec (.drw x y n) s = .next
      (((s.setFb (drawSprite s.mem (s.ea 0) (s.reg x).toNat (s.reg y).toNat n.toNat s.fb).1).setReg vf
        (collisionFlag (drawSprite s.mem (s.ea 0) (s.reg x).toNat (s.reg y).toNat n.toNat
          s.fb).2)).setDrawPending.advance) :=
  congrArg Host.Outcome.next (withRange_ok (h.imp (fun e => by simp [e]) id))

theorem exec_drw_fault (x y : RegIdx) {n : BitVec 4} {s : State} (h : n ≠ 0)
    (h' : s.i.toNat + (n.toNat - 1) > 0xFFF) :
    exec (.drw x y n) s = .next (s.raise .memData (max s.i.toNat 0x1000)) :=
  congrArg Host.Outcome.next (withRange_fault (fun e => h (BitVec.eq_of_toNat_eq e)) h')

/-! ### `step` and runs -/

theorem step_halted {s : State} (h : ¬ Running s) : step s = .next s.idle := by
  unfold step
  rw [if_pos ((halted_iff s).mpr h)]

theorem step_fetchFault {s : State} (hr : Running s) (hp : s.pc.toNat > 0xFFE) :
    step s = .next (s.raise .memFetch (faultAddr s.pc.toNat)) := by
  have hh : ¬ s.halted = true := by simp [(halted_eq_false_iff s).mpr hr]
  unfold step
  rw [if_neg hh, if_pos ((fetchFaults_iff s).mpr hp)]

/-- What every part of a step keeps, the step keeps. -/
theorem step_keeps {P : State → State → Prop} (idle : ∀ s : State, P s s.idle)
    (raise : ∀ (s : State) (c : FaultCause) (a : Nat), P s (s.raise c a))
    (tick : ∀ s u : State, P s u → P s u.tick) {s t : State} (h : step s = .next t)
    (effect : ∀ u, exec s.fetchInstr s = .next u → P s u) : P s t := by
  rcases step_cases h with ⟨_, ht⟩ | ⟨_, _, ht⟩ | ⟨_, _, u, hu, ht⟩
  · subst ht
    exact idle s
  · subst ht
    exact raise _ _ _
  · subst ht
    rcases finishCycle_cases s.fetchInstr s u with ⟨_, hf⟩ | ⟨_, _, hf⟩ <;> rw [hf]
    · exact effect u hu
    · exact tick _ _ (effect u hu)

theorem cycles_zero (s : State) : cycles 0 s = .next s := rfl

/-- One step of a run, for any core. -/
theorem run_succ (M : Host.Core) (k : Nat) (s t : M.State) (h : M.step s = .next t) :
    M.run (k + 1) s = M.run k t := by
  have e : M.run (k + 1) s = match M.step s with
    | .next u => M.run k u
    | .fault r => .fault r
    | .refused r => .refused r := rfl
  rw [e, h]

theorem cycles_succ {s t : State} (h : step s = .next t) (k : Nat) :
    cycles (k + 1) s = cycles k t := run_succ Sys2Proof.core k s t h

end Sys2Proof.Machine
end

