-- ==== Sys2Proof/Laws/Framebuffer.lean ====
section
/-!
SUPPORT. The laws of the framebuffer: what a pixel is after a flip, and what the loops of `DRW`
(R121) do pixel by pixel.
-/

namespace Sys2Proof.Machine

open Sys2Proof.Safety

theorem onGrid_iff {px py : Nat} : onGrid px py ↔ px < fbWidth ∧ py < fbHeight := by
  unfold onGrid fbWidth fbHeight
  omega

/-- Off the grid a pixel reads as clear. -/
theorem Framebuffer.pixel_off {f : Framebuffer} {px py : Nat} (h : ¬ onGrid px py) :
    f.pixel px py = false := by
  unfold Framebuffer.pixel
  rw [dif_neg (mt onGrid_iff.mpr h)]

/-- A flip changes the pixel it names, on the grid, and no other. -/
theorem Framebuffer.pixel_flip (f : Framebuffer) (px py qx qy : Nat) :
    (f.flip px py).pixel qx qy =
      (f.pixel qx qy ^^ decide (onGrid px py ∧ qx = px ∧ qy = py)) := by
  by_cases hg : px < fbWidth ∧ py < fbHeight
  · have hg' := onGrid_iff.mpr hg
    by_cases hq : qx < fbWidth ∧ qy < fbHeight
    · simp only [Framebuffer.flip, Framebuffer.pixel, dif_pos hg, dif_pos hq]
      by_cases hy : qy = py
      · subst hy
        by_cases hx : qx = px
        · subst hx; simp [hg'.1, hg'.2]
        · have : px ≠ qx := fun e => hx e.symm
          simp [hx, this]
      · have : py ≠ qy := fun e => hy e.symm
        simp [hy, this]
    · have hq' := mt onGrid_iff.mp hq
      rw [Framebuffer.pixel_off hq', Framebuffer.pixel_off hq']
      have : ¬ (onGrid px py ∧ qx = px ∧ qy = py) := by
        rintro ⟨h, rfl, rfl⟩; exact hq' h
      simp only [this, decide_false, Bool.xor_false]
  · have hg' := mt onGrid_iff.mp hg
    have : ¬ (onGrid px py ∧ qx = px ∧ qy = py) := fun h => hg' h.1
    simp only [Framebuffer.flip, dif_neg hg, this, decide_false, Bool.xor_false]

/-- Two framebuffers with the same pixels are the same. -/
theorem Framebuffer.ext_pixel {f g : Framebuffer}
    (h : ∀ px py, onGrid px py → f.pixel px py = g.pixel px py) : f = g := by
  apply Vector.ext
  intro py hy
  apply Vector.ext
  intro px hx
  have hp : px < fbWidth ∧ py < fbHeight := ⟨hx, hy⟩
  have := h px py (onGrid_iff.mpr hp)
  unfold Framebuffer.pixel at this
  rwa [dif_pos hp, dif_pos hp] at this

/-- What a loop of `DRW` has done when it has visited the pixels where `done` holds: those were
flipped on the grid, and the collision bit says whether one of them was set. -/
def Drawn (visited : Nat → Nat → Prop) (f : Framebuffer) (c0 : Bool) (acc : Framebuffer × Bool) :
    Prop :=
  (∀ px py, onGrid px py → (visited px py → acc.1.pixel px py = !f.pixel px py) ∧
    (¬ visited px py → acc.1.pixel px py = f.pixel px py)) ∧
  (acc.2 = true ↔ c0 = true ∨ ∃ px py, onGrid px py ∧ visited px py ∧ f.pixel px py = true)

theorem Drawn.start (f : Framebuffer) (c : Bool) : Drawn (fun _ _ => False) f c (f, c) := by
  refine ⟨fun px py _ => ⟨False.elim, fun _ => rfl⟩, ?_⟩
  simp

theorem Drawn.congr {v w : Nat → Nat → Prop} {f : Framebuffer} {c : Bool}
    {acc : Framebuffer × Bool} (h : Drawn v f c acc) (e : ∀ px py, onGrid px py → (v px py ↔ w px py)) :
    Drawn w f c acc := by
  refine ⟨fun px py hg => ?_, ?_⟩
  · have := h.1 px py hg
    rwa [e px py hg] at this
  · rw [h.2]
    constructor
    · rintro (h | ⟨px, py, hg, hv, hp⟩)
      · exact .inl h
      · exact .inr ⟨px, py, hg, (e px py hg).mp hv, hp⟩
    · rintro (h | ⟨px, py, hg, hv, hp⟩)
      · exact .inl h
      · exact .inr ⟨px, py, hg, (e px py hg).mpr hv, hp⟩

/-- One more sprite bit, at a pixel not visited before. -/
theorem Drawn.pixel {v : Nat → Nat → Prop} {f : Framebuffer} {c : Bool} {acc : Framebuffer × Bool}
    (h : Drawn v f c acc) (px py : Nat) (bit : Bool) (new : ¬ v px py) :
    Drawn (fun qx qy => v qx qy ∨ (bit = true ∧ qx = px ∧ qy = py)) f c (drawPixel px py bit acc) := by
  unfold drawPixel
  by_cases hb : bit = true ∧ onGrid px py
  · obtain ⟨hb, hx, hy⟩ := hb
    have hold := (h.1 px py ⟨hx, hy⟩).2 new
    rw [if_pos (by simp [hb, hx, hy])]
    refine ⟨fun qx qy hq => ?_, ?_⟩
    · have hq' := h.1 qx qy hq
      simp only [Framebuffer.pixel_flip, hb, true_and]
      by_cases he : qx = px ∧ qy = py
      · obtain ⟨rfl, rfl⟩ := he
        simp [hold, hq, new]
      · simp only [he, and_false, decide_false, Bool.xor_false, or_false]
        exact hq'
    · show (acc.2 || acc.1.pixel px py) = true ↔ _
      rw [Bool.or_eq_true, h.2, hold]
      constructor
      · rintro ((h | ⟨qx, qy, hg, hv, hp⟩) | hp)
        · exact .inl h
        · exact .inr ⟨qx, qy, hg, .inl hv, hp⟩
        · exact .inr ⟨px, py, ⟨hx, hy⟩, .inr ⟨hb, rfl, rfl⟩, hp⟩
      · rintro (h | ⟨qx, qy, hg, hv | ⟨_, rfl, rfl⟩, hp⟩)
        · exact .inl (.inl h)
        · exact .inl (.inr ⟨qx, qy, hg, hv, hp⟩)
        · exact .inr hp
  · rw [if_neg (by simpa using hb)]
    refine h.congr fun qx qy hq => ?_
    constructor
    · exact .inl
    · rintro (h | ⟨hbit, rfl, rfl⟩)
      · exact h
      · exact absurd ⟨hbit, hq⟩ hb

/-- A sprite row visits the pixels of its eight columns whose bit is 1. -/
theorem Drawn.row {v : Nat → Nat → Prop} {f : Framebuffer} {c0 : Bool} {acc : Framebuffer × Bool}
    (h : Drawn v f c0 acc) (b : Byte) (vx py : Nat) (new : ∀ px, ¬ v px py) :
    Drawn (fun qx qy => v qx qy ∨
        (vx ≤ qx ∧ qx < vx + spriteWidth ∧ qy = py ∧ b.getLsbD (7 - (qx - vx)) = true))
      f c0 (drawRow b vx py acc) := by
  have loop : ∀ k, k ≤ spriteWidth →
      Drawn (fun qx qy => v qx qy ∨
          (vx ≤ qx ∧ qx < vx + k ∧ qy = py ∧ b.getLsbD (7 - (qx - vx)) = true))
        f c0 ((List.range k).foldl
          (fun acc c => drawPixel (vx + c) py (b.getLsbD (7 - c)) acc) acc) := by
    intro k
    induction k with
    | zero =>
      intro _
      refine h.congr fun qx qy _ => ⟨.inl, ?_⟩
      rintro (h | ⟨h1, h2, _⟩)
      · exact h
      · omega
    | succ k ih =>
      intro hk
      rw [List.range_succ, List.foldl_append]
      refine ((ih (by omega)).pixel (vx + k) py (b.getLsbD (7 - k)) ?_).congr fun qx qy _ => ?_
      · rintro (h | ⟨_, h, _⟩)
        · exact new _ h
        · omega
      · constructor
        · rintro ((h | ⟨h1, h2, h3, h4⟩) | ⟨hb, rfl, rfl⟩)
          · exact .inl h
          · exact .inr ⟨h1, by omega, h3, h4⟩
          · exact .inr ⟨by omega, by omega, rfl, by rwa [Nat.add_sub_cancel_left]⟩
        · rintro (h | ⟨h1, h2, h3, h4⟩)
          · exact .inl (.inl h)
          · by_cases he : qx = vx + k
            · subst he
              exact .inr ⟨by rwa [Nat.add_sub_cancel_left] at h4, rfl, h3⟩
            · exact .inl (.inr ⟨h1, by omega, h3, h4⟩)
  exact loop spriteWidth (Nat.le_refl _)

/-- `DRW` visits exactly the pixels where the sprite has a 1 (R121, R122). -/
theorem drawSprite_drawn (m : Memory) (base vx vy n : Nat) (f : Framebuffer) :
    Drawn (fun qx qy => spriteAt m base vx vy n qx qy = true) f false
      (drawSprite m base vx vy n f) := by
  unfold drawSprite
  induction n with
  | zero =>
    refine (Drawn.start f false).congr fun qx qy _ => ⟨False.elim, fun h => ?_⟩
    simp only [spriteAt, Bool.and_eq_true, decide_eq_true_eq] at h
    omega
  | succ n ih =>
    rw [List.range_succ, List.foldl_append]
    refine (ih.row (m.read (base + n)) vx (vy + n) ?_).congr fun qx qy _ => ?_
    · intro px h
      simp only [spriteAt, Bool.and_eq_true, decide_eq_true_eq] at h
      omega
    · simp only [spriteAt, Bool.and_eq_true, decide_eq_true_eq]
      constructor
      · rintro (⟨⟨⟨⟨h1, h2⟩, h3⟩, h4⟩, h5⟩ | ⟨h1, h2, rfl, h4⟩)
        · exact ⟨⟨⟨⟨h1, h2⟩, h3⟩, by omega⟩, h5⟩
        · exact ⟨⟨⟨⟨h1, h2⟩, by omega⟩, by omega⟩, by rwa [Nat.add_sub_cancel_left]⟩
      · rintro ⟨⟨⟨⟨h1, h2⟩, h3⟩, h4⟩, h5⟩
        by_cases he : qy = vy + n
        · subst he
          exact .inr ⟨h1, h2, rfl, by rwa [Nat.add_sub_cancel_left] at h5⟩
        · exact .inl ⟨⟨⟨⟨h1, h2⟩, h3⟩, by omega⟩, h5⟩

/-- Each pixel of the grid after `DRW` is the old one exclusive-or the sprite's. -/
theorem drawSprite_pixel (m : Memory) (base vx vy n : Nat) (f : Framebuffer) {px py : Nat}
    (hg : onGrid px py) :
    (drawSprite m base vx vy n f).1.pixel px py =
      (f.pixel px py ^^ spriteAt m base vx vy n px py) := by
  have h := (drawSprite_drawn m base vx vy n f).1 px py hg
  cases hs : spriteAt m base vx vy n px py
  · simpa using h.2 (by simp [hs])
  · simpa using h.1 hs

/-- The collision bit of `DRW`. -/
theorem drawSprite_collision (m : Memory) (base vx vy n : Nat) (f : Framebuffer) :
    (drawSprite m base vx vy n f).2 = true ↔ collides m base vx vy n f := by
  simpa [collides] using (drawSprite_drawn m base vx vy n f).2

@[simp] theorem pixel_blank (px py : Nat) : blankFramebuffer.pixel px py = false := by
  unfold Framebuffer.pixel blankFramebuffer
  split <;> simp

end Sys2Proof.Machine
end

