-- ==== Sys2Proof/Laws/Memory.lean ====
section
/-!
SUPPORT. The laws of memory: a read after a write, what a write leaves alone, and that every
memory operation keeps the canonical form.
-/

namespace Sys2Proof.Machine

@[simp] theorem Memory.read_nil (a : Nat) : Memory.read [] a = Memory.unlisted a := rfl

/-- Above the font region an unlisted address reads as 0 (R10, R36). -/
theorem Memory.unlisted_above_font {a : Nat} (h : fontLength ≤ a) : Memory.unlisted a = 0 := by
  have hlen : Config.standard.fontImage.length ≤ a - fontBase := h
  unfold Memory.unlisted
  split
  · rw [List.getD_eq_getElem?_getD, List.getElem?_eq_none (by omega)]
    rfl
  · rfl

theorem Memory.read_cons (k : Nat) (b : Byte) (m : Memory) (a : Nat) :
    Memory.read ((k, b) :: m) a = if a = k then b else Memory.read m a := rfl

/-- An address below every listed one is unlisted. -/
theorem Memory.read_of_lt {m : Memory} {a : Nat} (h : ∀ c ∈ m, a < c.1) :
    Memory.read m a = Memory.unlisted a := by
  induction m with
  | nil => rfl
  | cons c m ih =>
    have hc : a < c.1 := h c (by simp)
    rw [show c = (c.1, c.2) from rfl, Memory.read_cons, if_neg (by omega)]
    exact ih fun d hd => h d (by simp [hd])

/-- Reading after listing a cell. -/
theorem Memory.read_cell {m : Memory} {a : Nat} (b : Byte) (h : ∀ c ∈ m, a < c.1) (x : Nat) :
    Memory.read (Memory.cell a b m) x = if x = a then b else Memory.read m x := by
  unfold Memory.cell
  split
  · next hb =>
    split
    · next hx => rw [hx, Memory.read_of_lt h, hb]
    · rfl
  · rfl

/-- Rising addresses: the part of the canonical form that reading needs. -/
abbrev Memory.rising (m : Memory) : Prop := m.Pairwise (fun c d => c.1 < d.1)

theorem Memory.mem_cell {a : Nat} {b : Byte} {m : Memory} {c : Host.Cell}
    (h : c ∈ Memory.cell a b m) : c = (a, b) ∨ c ∈ m := by
  unfold Memory.cell at h
  split at h
  · exact .inr h
  · simpa using h

/-- Every cell of a written memory is the written one or an old one. -/
theorem Memory.mem_write {m : Memory} {a : Nat} {b : Byte} {c : Host.Cell}
    (h : c ∈ Memory.write m a b) : c = (a, b) ∨ c ∈ m := by
  induction m with
  | nil => exact Memory.mem_cell h
  | cons d m ih =>
    obtain ⟨k, e⟩ := d
    unfold Memory.write at h
    split at h
    · exact Memory.mem_cell h
    · split at h
      · exact (Memory.mem_cell h).imp_right (List.mem_cons_of_mem _)
      · rcases List.mem_cons.mp h with h | h
        · exact .inr (h ▸ List.mem_cons_self)
        · exact (ih h).imp_right (List.mem_cons_of_mem _)

/-- A write keeps the canonical form. -/
theorem Memory.write_wf {m : Memory} (hm : m.wf) {a : Nat} (ha : a < memSize) (b : Byte) :
    (m.write a b).wf := by
  have cell_wf : ∀ {rest : Memory}, rest.wf → (∀ c ∈ rest, a < c.1) → (Memory.cell a b rest).wf := by
    intro rest hr hlt
    unfold Memory.cell
    split
    · exact hr
    · next hb =>
      refine ⟨List.pairwise_cons.mpr ⟨fun c hc => hlt c hc, hr.1⟩, fun c hc => ?_⟩
      rcases List.mem_cons.mp hc with rfl | hc
      · exact ⟨ha, hb⟩
      · exact hr.2 c hc
  induction m with
  | nil => exact cell_wf hm (by simp)
  | cons d m ih =>
    obtain ⟨k, e⟩ := d
    have hm' := List.pairwise_cons.mp hm.1
    have tail : Memory.wf m := ⟨hm'.2, fun c hc => hm.2 c (List.mem_cons_of_mem _ hc)⟩
    unfold Memory.write
    split
    · next hlt =>
      refine cell_wf hm fun c hc => ?_
      rcases List.mem_cons.mp hc with rfl | hc
      · exact hlt
      · exact Nat.lt_trans hlt (hm'.1 c hc)
    · split
      · next hk => exact cell_wf tail fun c hc => hk ▸ hm'.1 c hc
      · next hlt hk =>
        have w := ih tail
        refine ⟨List.pairwise_cons.mpr ⟨fun c hc => ?_, w.1⟩, fun c hc => ?_⟩
        · rcases Memory.mem_write hc with rfl | hc
          · show k < a; omega
          · exact hm'.1 c hc
        · rcases List.mem_cons.mp hc with rfl | hc
          · exact hm.2 _ List.mem_cons_self
          · exact w.2 c hc

/-- Reading after a write, in a memory of canonical form. -/
theorem Memory.read_write {m : Memory} (hm : m.rising) (a : Nat) (b : Byte) (x : Nat) :
    (m.write a b).read x = if x = a then b else m.read x := by
  induction m with
  | nil => exact Memory.read_cell b (by simp) x
  | cons d m ih =>
    obtain ⟨k, e⟩ := d
    have hm' := List.pairwise_cons.mp hm
    unfold Memory.write
    split
    · next hlt =>
      refine Memory.read_cell b (fun c hc => ?_) x
      rcases List.mem_cons.mp hc with rfl | hc
      · exact hlt
      · exact Nat.lt_trans hlt (hm'.1 c hc)
    · split
      · next hk =>
        subst hk
        rw [Memory.read_cell b (fun c hc => hm'.1 c hc), Memory.read_cons]
        split <;> rfl
      · next hlt hk =>
        rw [Memory.read_cons, Memory.read_cons, ih hm'.2]
        split
        · next hx => rw [if_neg (by omega)]
        · rfl

theorem Memory.read_write_same {m : Memory} (hm : m.rising) (a : Nat) (b : Byte) :
    (m.write a b).read a = b := by
  rw [Memory.read_write hm, if_pos rfl]

/-- A write leaves every other address alone, whatever the form of the memory. -/
theorem Memory.read_write_ne (m : Memory) {a x : Nat} (b : Byte) (h : x ≠ a) :
    (m.write a b).read x = m.read x := by
  have cell : ∀ rest : Memory, Memory.read (Memory.cell a b rest) x = Memory.read rest x := by
    intro rest
    unfold Memory.cell
    split
    · rfl
    · rw [Memory.read_cons, if_neg h]
  induction m with
  | nil => exact cell []
  | cons d m ih =>
    obtain ⟨k, e⟩ := d
    unfold Memory.write
    split
    · exact cell _
    · split
      · next hk => rw [cell, Memory.read_cons, if_neg (by omega)]
      · rw [Memory.read_cons, Memory.read_cons, ih]

/-! ### Several bytes -/

@[simp] theorem Memory.writeBytes_nil (m : Memory) (a : Nat) : m.writeBytes a [] = m := by
  cases m <;> rfl

theorem Memory.writeBytes_cons (m : Memory) (a : Nat) (b : Byte) (bs : List Byte) :
    m.writeBytes a (b :: bs) = (m.write a b).writeBytes (a + 1) bs := by
  cases m <;> rfl

/-- Stores of consecutive bytes inside the address space keep the canonical form. -/
theorem Memory.writeBytes_wf {bs : List Byte} : ∀ {m : Memory} {a : Nat}, m.wf →
    a + bs.length ≤ memSize → (m.writeBytes a bs).wf := by
  induction bs with
  | nil => intro m a hm _; simpa using hm
  | cons b bs ih =>
    intro m a hm ha
    simp only [List.length_cons] at ha
    rw [Memory.writeBytes_cons]
    exact ih (Memory.write_wf hm (by omega) b) (by omega)

/-- Consecutive stores leave every address outside them alone. -/
theorem Memory.read_writeBytes_outside {bs : List Byte} : ∀ {m : Memory} {a x : Nat},
    x < a ∨ a + bs.length ≤ x → (m.writeBytes a bs).read x = m.read x := by
  induction bs with
  | nil => intro m a x _; simp
  | cons b bs ih =>
    intro m a x h
    simp only [List.length_cons] at h
    rw [Memory.writeBytes_cons, ih (by omega), Memory.read_write_ne m b (by omega)]

/-- Consecutive stores in a memory of canonical form put their bytes in ascending order. -/
theorem Memory.read_writeBytes_inside {bs : List Byte} : ∀ {m : Memory} {a k : Nat}, m.wf →
    a + bs.length ≤ memSize → (hk : k < bs.length) → (m.writeBytes a bs).read (a + k) = bs[k] := by
  induction bs with
  | nil => intro m a k _ _ hk; simp at hk
  | cons b bs ih =>
    intro m a k hm ha hk
    simp only [List.length_cons] at ha hk
    rw [Memory.writeBytes_cons]
    cases k with
    | zero =>
      rw [Memory.read_writeBytes_outside (by omega)]
      simpa using Memory.read_write_same hm.1 a b
    | succ k =>
      have := ih (k := k) (Memory.write_wf hm (show a < memSize by omega) b)
        (show a + 1 + bs.length ≤ memSize by omega) (by omega)
      rw [show a + (k + 1) = a + 1 + k by omega, this]
      rfl

end Sys2Proof.Machine
end

