-- ==== Sys2Proof/Laws/Operands.lean ====
section
/-!
SUPPORT. The operand forms and the flag computations in numbers, one lemma each, so that no proof
unfolds them.
-/

namespace Sys2Proof.Machine

/-! ### Operands (spec/30_encoding.md R48, spec/43_index_memory.md R116) -/

@[simp] theorem addrOf_toNat (nnn : BitVec 12) : (addrOf nnn).toNat = nnn.toNat := by
  have := nnn.isLt
  simp only [addrOf, BitVec.toNat_setWidth]
  omega

/-- The target of `JP V0` is the plain sum (R87). -/
theorem indexedTarget_toNat (nnn : BitVec 12) (v0 : Byte) :
    (indexedTarget nnn v0).toNat = nnn.toNat + v0.toNat := by
  have := nnn.isLt
  have := v0.isLt
  simp only [indexedTarget, BitVec.toNat_add, addrOf_toNat, BitVec.toNat_setWidth]
  omega

/-- The key index is the low four bits (R130). -/
theorem keyOf_val (b : Byte) : (keyOf b).val = b.toNat % 16 := by
  show (b.extractLsb' 0 4).toNat = _
  simp

/-- The digit is the low four bits (R112). -/
theorem digitOf_eq (b : Byte) : digitOf b = b.toNat % 16 := by
  simp [digitOf]

/-- The address of the glyph of a digit (R112). -/
theorem glyphAddr_toNat {d : Nat} (h : d < 16) : (glyphAddr d).toNat = 5 * d := by
  unfold glyphAddr fontBase glyphBytes
  rw [BitVec.toNat_ofNat]
  omega

theorem ea_eq (s : State) (k : Nat) : s.ea k = s.i.toNat + k := rfl

@[simp] theorem bcdDigits_length (b : Byte) : (bcdDigits b).length = 3 := rfl

@[simp] theorem regsUpTo_length (s : State) (x : RegIdx) : (s.regsUpTo x).length = x.val + 1 := by
  have := x.isLt
  simp [State.regsUpTo]

/-- Element k of the block that `LD [I], Vx` stores is `V[k]` (R114). -/
theorem regsUpTo_getElem (s : State) (x : RegIdx) (k : RegIdx) (h : k.val < (s.regsUpTo x).length) :
    (s.regsUpTo x)[k.val] = s.reg k := by
  simp [State.regsUpTo, State.reg]

/-- The block load, register by register (R115). -/
theorem loadRegsUpTo_reg (s : State) (x k : RegIdx) :
    (s.loadRegsUpTo x).reg k = if k ≤ x then s.mem.read (s.ea k.val) else s.reg k := by
  have loop : ∀ n : Nat,
      ((List.range n).foldl (fun v k => v.setIfInBounds k (s.mem.read (s.ea k))) s.v)[k.val] =
        if k.val < n then s.mem.read (s.ea k.val) else s.v[k.val] := by
    intro n
    induction n with
    | zero => simp
    | succ n ih =>
      rw [List.range_succ, List.foldl_append]
      simp only [List.foldl_cons, List.foldl_nil]
      rw [Vector.getElem_setIfInBounds]
      split
      · next h => subst h; rw [if_pos (Nat.lt_succ_self _)]
      · next h =>
        rw [ih]
        by_cases hk : k.val < n
        · rw [if_pos hk, if_pos (by omega)]
        · rw [if_neg hk, if_neg (by omega)]
  have h := loop (x.val + 1)
  by_cases hk : k ≤ x
  · have hk' : k.val ≤ x.val := hk
    rw [if_pos (by omega)] at h
    rw [if_pos hk]
    exact h
  · have hk' : ¬ k.val ≤ x.val := hk
    rw [if_neg (by omega)] at h
    rw [if_neg hk]
    exact h

/-! ### Flags and results (table F1 of spec/42_alu.md R103; R111) -/

theorem flagByte_toNat (b : Bool) : (flagByte b).toNat = if b = true then 1 else 0 := by
  cases b <;> rfl

theorem sum9_toNat (a b : Byte) : (sum9 a b).toNat = a.toNat + b.toNat := by
  have := a.isLt
  have := b.isLt
  simp only [sum9, BitVec.toNat_add, BitVec.toNat_setWidth]
  omega

/-- The carry out of bit 7 is whether the sum exceeds 255 (R96). -/
theorem carryFlag_toNat (a b : Byte) :
    (carryFlag a b).toNat = if a.toNat + b.toNat > 255 then 1 else 0 := by
  have := a.isLt
  have := b.isLt
  have h : (sum9 a b).getLsbD 8 = decide (a.toNat + b.toNat > 255) := by
    rw [BitVec.getLsbD, sum9_toNat, Nat.testBit_eq_decide_div_mod_eq]
    congr 1
    rw [eq_iff_iff]
    omega
  rw [carryFlag, flagByte_toNat, h]
  simp

/-- Not-borrow (R97, R99). -/
theorem notBorrowFlag_toNat (a b : Byte) :
    (notBorrowFlag a b).toNat = if a.toNat ≥ b.toNat then 1 else 0 := by
  rw [notBorrowFlag, flagByte_toNat]
  simp [BitVec.le_def]

theorem sub_toNat (a b : Byte) : (a - b).toNat = (a.toNat + 256 - b.toNat) % 256 := by
  have := a.isLt
  have := b.isLt
  rw [BitVec.toNat_sub]
  omega

theorem shrFlag_toNat (a : Byte) : (shrFlag a).toNat = a.toNat % 2 := by
  simp [shrFlag, BitVec.toNat_and]

theorem shlFlag_toNat (a : Byte) : (shlFlag a).toNat = a.toNat / 128 := by
  have := a.isLt
  have h : (shlFlag a).toNat = a.toNat / 128 % 2 := by
    simp [shlFlag, BitVec.toNat_and, Nat.shiftRight_eq_div_pow]
  rw [h]
  omega

theorem shiftRight_one_toNat (a : Byte) : (a >>> 1).toNat = a.toNat / 2 := by
  simp [Nat.shiftRight_eq_div_pow]

theorem shiftLeft_one_toNat (a : Byte) : (a <<< 1).toNat = 2 * a.toNat % 256 := by
  simp only [BitVec.toNat_shiftLeft, Nat.shiftLeft_eq]
  omega

theorem indexSum_toNat (i : Word) (a : Byte) : (indexSum i a).toNat = i.toNat + a.toNat := by
  have := a.isLt
  have := i.isLt
  simp only [indexSum, BitVec.toNat_add, BitVec.toNat_setWidth]
  omega

/-- Does the un-truncated sum exceed 0xFFF? (R111) -/
theorem indexFlag_toNat (i : Word) (a : Byte) :
    (indexFlag i a).toNat = if i.toNat + a.toNat > 0xFFF then 1 else 0 := by
  rw [indexFlag, flagByte_toNat]
  simp [BitVec.lt_def, indexSum_toNat]

end Sys2Proof.Machine
end

