-- ==== Sys2Proof/Laws/PerInstr.lean ====
section
/-!
SUPPORT. The laws stated of every instruction, one lemma per constructor.
-/

namespace Sys2Proof

open BitVec

/-! ### Masks of the formats (table E3) -/

/-- The mask 0xF000 keeps the group. -/
theorem mask_group (op : Word) : op &&& 0xF000#16 = formatA (opG op) 0 := by
  conv_lhs => rw [← formatA_fields op]
  have h : (0xF000#16 : Word) = formatA 0xF 0 := by decide
  rw [h]
  unfold formatA
  exact (and_append (x₁ := opG op) (y₁ := opNnn op) (x₂ := 0xF) (y₂ := 0)).trans (by
    rw [show (0xF : BitVec 4) = allOnes 4 by decide, and_allOnes]
    exact congrArg (opG op ++ ·) and_zero)

/-- The mask 0xF00F keeps the group and the function digit. -/
theorem mask_group_digit (op : Word) : op &&& 0xF00F#16 = formatR (opG op) 0 0 (opN op) := by
  conv_lhs => rw [← formatR_fields op]
  have h : (0xF00F#16 : Word) = formatR 0xF 0 0 0xF := by decide
  rw [h]
  unfold formatR
  refine (and_append (x₁ := (opG op ++ regBits (opX op)) ++ regBits (opY op)) (y₁ := opN op)
    (x₂ := (0xF#4 ++ regBits 0) ++ regBits 0) (y₂ := 0xF#4)).trans ?_
  rw [and_append, and_append, show (0xF#4 : BitVec 4) = allOnes 4 by decide, and_allOnes,
    and_allOnes, show regBits 0 = 0#4 by decide, and_zero, and_zero]

/-- The mask 0xF0FF keeps the group and the function byte. -/
theorem mask_group_byte (op : Word) : op &&& 0xF0FF#16 = formatI (opG op) 0 (opKk op) := by
  conv_lhs => rw [← formatI_fields op]
  have h : (0xF0FF#16 : Word) = formatI 0xF 0 0xFF := by decide
  rw [h]
  unfold formatI
  refine (and_append (x₁ := opG op ++ regBits (opX op)) (y₁ := opKk op)
    (x₂ := 0xF#4 ++ regBits 0) (y₂ := 0xFF#8)).trans ?_
  rw [and_append, show (0xF#4 : BitVec 4) = allOnes 4 by decide,
    show (0xFF#8 : Byte) = allOnes 8 by decide, and_allOnes, and_allOnes,
    show regBits 0 = 0#4 by decide, and_zero]

namespace Laws.RowOfEncoding

/-- The word of an instruction has the fixed bits of its own row of table E3 (R50). -/
def Statement (i : Instr) : Prop :=
  ∀ r ∈ opcodeMap, r.mnemonic = i.mnemonic → r.selects (encode i) = true

/-- The row of a mnemonic, found once: the rows with that name are those listed. -/
theorem statement_of {i : Instr} (name : String) (mask bits : Word) (hn : i.mnemonic = name)
    (row : (opcodeMap.filter fun r => r.mnemonic == name) = [⟨name, mask, bits⟩])
    (sel : encode i &&& mask = bits) : Statement i := by
  intro r hr hm
  have : r ∈ opcodeMap.filter fun r => r.mnemonic == name := by
    rw [List.mem_filter]
    exact ⟨hr, by simp [hm, hn]⟩
  rw [row, List.mem_singleton] at this
  subst this
  simp [OpRow.selects, sel]

theorem cls : Statement .cls := statement_of "CLS" 0xFFFF#16 0x00E0#16 rfl (by decide) (by decide)

theorem ret : Statement .ret := statement_of "RET" 0xFFFF#16 0x00EE#16 rfl (by decide) (by decide)

theorem jp (nnn : BitVec 12) : Statement (.jp nnn) :=
  statement_of "JP" 0xF000#16 0x1000#16 rfl (by decide)
    (by rw [encode, mask_group, opG_formatA]; decide)

theorem call (nnn : BitVec 12) : Statement (.call nnn) :=
  statement_of "CALL" 0xF000#16 0x2000#16 rfl (by decide)
    (by rw [encode, mask_group, opG_formatA]; decide)

theorem seKk (x : RegIdx) (kk : Byte) : Statement (.seKk x kk) :=
  statement_of "SE_KK" 0xF000#16 0x3000#16 rfl (by decide)
    (by rw [encode, mask_group, opG_formatI]; decide)

theorem sneKk (x : RegIdx) (kk : Byte) : Statement (.sneKk x kk) :=
  statement_of "SNE_KK" 0xF000#16 0x4000#16 rfl (by decide)
    (by rw [encode, mask_group, opG_formatI]; decide)

theorem seVy (x y : RegIdx) : Statement (.seVy x y) :=
  statement_of "SE_VY" 0xF00F#16 0x5000#16 rfl (by decide)
    (by rw [encode, mask_group_digit, opG_formatR, opN_formatR]; decide)

theorem ldKk (x : RegIdx) (kk : Byte) : Statement (.ldKk x kk) :=
  statement_of "LD_KK" 0xF000#16 0x6000#16 rfl (by decide)
    (by rw [encode, mask_group, opG_formatI]; decide)

theorem addKk (x : RegIdx) (kk : Byte) : Statement (.addKk x kk) :=
  statement_of "ADD_KK" 0xF000#16 0x7000#16 rfl (by decide)
    (by rw [encode, mask_group, opG_formatI]; decide)

theorem ldVy (x y : RegIdx) : Statement (.ldVy x y) :=
  statement_of "LD_VY" 0xF00F#16 0x8000#16 rfl (by decide)
    (by rw [encode, mask_group_digit, opG_formatR, opN_formatR]; decide)

theorem orVy (x y : RegIdx) : Statement (.orVy x y) :=
  statement_of "OR" 0xF00F#16 0x8001#16 rfl (by decide)
    (by rw [encode, mask_group_digit, opG_formatR, opN_formatR]; decide)

theorem andVy (x y : RegIdx) : Statement (.andVy x y) :=
  statement_of "AND" 0xF00F#16 0x8002#16 rfl (by decide)
    (by rw [encode, mask_group_digit, opG_formatR, opN_formatR]; decide)

theorem xorVy (x y : RegIdx) : Statement (.xorVy x y) :=
  statement_of "XOR" 0xF00F#16 0x8003#16 rfl (by decide)
    (by rw [encode, mask_group_digit, opG_formatR, opN_formatR]; decide)

theorem addVy (x y : RegIdx) : Statement (.addVy x y) :=
  statement_of "ADD_VY" 0xF00F#16 0x8004#16 rfl (by decide)
    (by rw [encode, mask_group_digit, opG_formatR, opN_formatR]; decide)

theorem subVy (x y : RegIdx) : Statement (.subVy x y) :=
  statement_of "SUB" 0xF00F#16 0x8005#16 rfl (by decide)
    (by rw [encode, mask_group_digit, opG_formatR, opN_formatR]; decide)

theorem shr (x y : RegIdx) : Statement (.shr x y) :=
  statement_of "SHR" 0xF00F#16 0x8006#16 rfl (by decide)
    (by rw [encode, mask_group_digit, opG_formatR, opN_formatR]; decide)

theorem subn (x y : RegIdx) : Statement (.subn x y) :=
  statement_of "SUBN" 0xF00F#16 0x8007#16 rfl (by decide)
    (by rw [encode, mask_group_digit, opG_formatR, opN_formatR]; decide)

theorem shl (x y : RegIdx) : Statement (.shl x y) :=
  statement_of "SHL" 0xF00F#16 0x800E#16 rfl (by decide)
    (by rw [encode, mask_group_digit, opG_formatR, opN_formatR]; decide)

theorem sneVy (x y : RegIdx) : Statement (.sneVy x y) :=
  statement_of "SNE_VY" 0xF00F#16 0x9000#16 rfl (by decide)
    (by rw [encode, mask_group_digit, opG_formatR, opN_formatR]; decide)

theorem ldI (nnn : BitVec 12) : Statement (.ldI nnn) :=
  statement_of "LD_I" 0xF000#16 0xA000#16 rfl (by decide)
    (by rw [encode, mask_group, opG_formatA]; decide)

theorem jpV0 (nnn : BitVec 12) : Statement (.jpV0 nnn) :=
  statement_of "JP_V0" 0xF000#16 0xB000#16 rfl (by decide)
    (by rw [encode, mask_group, opG_formatA]; decide)

theorem rnd (x : RegIdx) (kk : Byte) : Statement (.rnd x kk) :=
  statement_of "RND" 0xF000#16 0xC000#16 rfl (by decide)
    (by rw [encode, mask_group, opG_formatI]; decide)

theorem drw (x y : RegIdx) (n : BitVec 4) : Statement (.drw x y n) :=
  statement_of "DRW" 0xF000#16 0xD000#16 rfl (by decide)
    (by rw [encode, formatD_eq, mask_group, opG_formatR]; decide)

theorem skp (x : RegIdx) : Statement (.skp x) :=
  statement_of "SKP" 0xF0FF#16 0xE09E#16 rfl (by decide)
    (by rw [encode, formatX_eq, mask_group_byte, opG_formatI, opKk_formatI]; decide)

theorem sknp (x : RegIdx) : Statement (.sknp x) :=
  statement_of "SKNP" 0xF0FF#16 0xE0A1#16 rfl (by decide)
    (by rw [encode, formatX_eq, mask_group_byte, opG_formatI, opKk_formatI]; decide)

theorem ldVxDt (x : RegIdx) : Statement (.ldVxDt x) :=
  statement_of "LD_VX_DT" 0xF0FF#16 0xF007#16 rfl (by decide)
    (by rw [encode, formatX_eq, mask_group_byte, opG_formatI, opKk_formatI]; decide)

theorem ldVxK (x : RegIdx) : Statement (.ldVxK x) :=
  statement_of "LD_VX_K" 0xF0FF#16 0xF00A#16 rfl (by decide)
    (by rw [encode, formatX_eq, mask_group_byte, opG_formatI, opKk_formatI]; decide)

theorem ldDtVx (x : RegIdx) : Statement (.ldDtVx x) :=
  statement_of "LD_DT_VX" 0xF0FF#16 0xF015#16 rfl (by decide)
    (by rw [encode, formatX_eq, mask_group_byte, opG_formatI, opKk_formatI]; decide)

theorem ldStVx (x : RegIdx) : Statement (.ldStVx x) :=
  statement_of "LD_ST_VX" 0xF0FF#16 0xF018#16 rfl (by decide)
    (by rw [encode, formatX_eq, mask_group_byte, opG_formatI, opKk_formatI]; decide)

theorem addI (x : RegIdx) : Statement (.addI x) :=
  statement_of "ADD_I" 0xF0FF#16 0xF01E#16 rfl (by decide)
    (by rw [encode, formatX_eq, mask_group_byte, opG_formatI, opKk_formatI]; decide)

theorem ldF (x : RegIdx) : Statement (.ldF x) :=
  statement_of "LD_F" 0xF0FF#16 0xF029#16 rfl (by decide)
    (by rw [encode, formatX_eq, mask_group_byte, opG_formatI, opKk_formatI]; decide)

theorem ldB (x : RegIdx) : Statement (.ldB x) :=
  statement_of "LD_B" 0xF0FF#16 0xF033#16 rfl (by decide)
    (by rw [encode, formatX_eq, mask_group_byte, opG_formatI, opKk_formatI]; decide)

theorem stRegs (x : RegIdx) : Statement (.stRegs x) :=
  statement_of "ST_REGS" 0xF0FF#16 0xF055#16 rfl (by decide)
    (by rw [encode, formatX_eq, mask_group_byte, opG_formatI, opKk_formatI]; decide)

theorem ldRegs (x : RegIdx) : Statement (.ldRegs x) :=
  statement_of "LD_REGS" 0xF0FF#16 0xF065#16 rfl (by decide)
    (by rw [encode, formatX_eq, mask_group_byte, opG_formatI, opKk_formatI]; decide)

theorem unassigned (op : Word) : Statement (.unassigned op) := by
  intro r hr hm
  have : ∀ r ∈ opcodeMap, r.mnemonic ≠ "UNASSIGNED" := by decide
  exact absurd hm (this r hr)

end Laws.RowOfEncoding

end Sys2Proof
end

