-- ==== Sys2Proof/Tests/Slice0.lean ====
section
/-!
SUPPORT. The model's own tests. Expected results come from spec/: the vectors of
spec/95_test_vectors.md (named in each docstring: CF, AL, IM, DS, KT, UN, FT, DE, HO, S) and the
words of the formats of spec/30_encoding.md. A theorem `witness_<Name>` shows a state and operands
that meet every hypothesis of `Obligations.<Name>`, at the boundaries of its clauses.
-/

namespace Sys2Proof.Tests

open Sys2Proof Sys2Proof.Machine Sys2Proof.Safety

/-! ### Helpers -/

/-- The reset state with some registers changed. -/
def withRegs (l : List (RegIdx × Byte)) : State :=
  l.foldl (fun s p => s.setReg p.1 p.2) State.reset

/-- A vector of spec/95: the word stored big-endian at `PC`. -/
def vec (op : Word) (s : State) : State := s.placeWord s.pc.toNat op

/-- What a cycle gives, as an answer that can be compared. -/
def cycle? (s : State) : Option State :=
  match step s with
  | .next t => some t
  | .fault _ => none
  | .refused _ => none

/-- One cycle of a vector, through a view of the state after it. -/
def see {α : Type} (op : Word) (s : State) (view : State → α) : Option α :=
  (cycle? (vec op s)).map view

/-- The state after a cycle, where there is one. -/
def afterStep (s : State) : State := (cycle? s).getD s

theorem step_afterStep {s : State} (h : (cycle? s).isSome = true) : step s = .next (afterStep s) := by
  unfold afterStep
  revert h
  unfold cycle?
  cases step s <;> simp

/-- The answer of a meaning, as one that can be compared. -/
def exec? (i : Instr) (s : State) : Option State :=
  match exec i s with
  | .next t => some t
  | .fault _ => none
  | .refused _ => none

/-- The state after a meaning, where there is one. -/
def afterExec (i : Instr) (s : State) : State := (exec? i s).getD s

theorem exec_afterExec {i : Instr} {s : State} (h : (exec? i s).isSome = true) :
    exec i s = .next (afterExec i s) := by
  unfold afterExec
  revert h
  unfold exec?
  cases exec i s <;> simp

/-- Some pixels set. -/
def withPixels (l : List (Nat × Nat)) (s : State) : State :=
  s.setFb (l.foldl (fun f p => f.flip p.1 p.2) s.fb)

/-- Some keys down. -/
def withKeys (l : List KeyIdx) (s : State) : State :=
  { s with keys := l.foldl (fun ks (k : KeyIdx) => ks.set k.val true) s.keys }

/-! ### Well-formedness: the one check refuses an ill-formed term of every group -/

/-- An assigned word is no unassigned instruction. -/
theorem test_wellFormed_refuses :
    (Instr.unassigned 0x00E0).wellFormed = false ∧ (Instr.unassigned 0x00EE).wellFormed = false ∧
    (Instr.unassigned 0x1ABC).wellFormed = false ∧ (Instr.unassigned 0x5AB0).wellFormed = false ∧
    (Instr.unassigned 0x8ABE).wellFormed = false ∧ (Instr.unassigned 0x9AB0).wellFormed = false ∧
    (Instr.unassigned 0xE39E).wellFormed = false ∧ (Instr.unassigned 0xF465).wellFormed = false := by
  decide

/-- One unassigned word of each of the groups (a) to (f) of R51. -/
theorem test_wellFormed_accepts :
    (Instr.unassigned 0x0000).wellFormed = true ∧ (Instr.unassigned 0x5AB1).wellFormed = true ∧
    (Instr.unassigned 0x8AB8).wellFormed = true ∧ (Instr.unassigned 0x9ABF).wellFormed = true ∧
    (Instr.unassigned 0xE39F).wellFormed = true ∧ (Instr.unassigned 0xF475).wellFormed = true := by
  decide

/-! ### Decoding: a word for every constructor, digit by digit from tables E2 and E3 -/

/-- Formats Z and A (DE1, DE2, DE4, DE5, DE15, DE16). -/
theorem test_decode_fixed_and_address :
    decode 0b0000000011100000 = .cls ∧ decode 0b0000000011101110 = .ret ∧
    decode 0b0001101010111100 = .jp 0xABC ∧ decode 0b0010101010111100 = .call 0xABC ∧
    decode 0b1010000100100011 = .ldI 0x123 ∧ decode 0b1011000100100011 = .jpV0 0x123 := by
  decide

/-- Format I (DE6, DE7, DE10, DE11, DE17). -/
theorem test_decode_immediate :
    decode 0b0011101001111111 = .seKk 10 0x7F ∧ decode 0b0100111100000000 = .sneKk 15 0x00 ∧
    decode 0b0110110000101010 = .ldKk 12 0x2A ∧ decode 0b0111000000000001 = .addKk 0 0x01 ∧
    decode 0b1100000111110000 = .rnd 1 0xF0 := by
  decide

/-- Format R (DE8, DE12, DE14). -/
theorem test_decode_registers :
    decode 0b0101101010110000 = .seVy 10 11 ∧ decode 0b1000101010110000 = .ldVy 10 11 ∧
    decode 0b1000101010110001 = .orVy 10 11 ∧ decode 0b1000101010110010 = .andVy 10 11 ∧
    decode 0b1000101010110011 = .xorVy 10 11 ∧ decode 0b1000101010110100 = .addVy 10 11 ∧
    decode 0b1000101010110101 = .subVy 10 11 ∧ decode 0b1000101010110110 = .shr 10 11 ∧
    decode 0b1000101010110111 = .subn 10 11 ∧ decode 0b1000101010111110 = .shl 10 11 ∧
    decode 0b1001101010110000 = .sneVy 10 11 := by
  decide

/-- Formats D and X (DE18, DE19, DE20, DE22). -/
theorem test_decode_draw_and_function_byte :
    decode 0b1101000100100101 = .drw 1 2 5 ∧ decode 0b1110001110011110 = .skp 3 ∧
    decode 0b1110001110100001 = .sknp 3 ∧ decode 0b1111010000000111 = .ldVxDt 4 ∧
    decode 0b1111010000001010 = .ldVxK 4 ∧ decode 0b1111010000010101 = .ldDtVx 4 ∧
    decode 0b1111010000011000 = .ldStVx 4 ∧ decode 0b1111010000011110 = .addI 4 ∧
    decode 0b1111010000101001 = .ldF 4 ∧ decode 0b1111010000110011 = .ldB 4 ∧
    decode 0b1111010001010101 = .stRegs 4 ∧ decode 0b1111010001100101 = .ldRegs 4 := by
  decide

/-- Unassigned words (DE3, DE9, DE13, DE21, DE23). -/
theorem test_decode_unassigned :
    [0x0000, 0x5AB1, 0x8AB8, 0x8AB9, 0x8ABA, 0x8ABB, 0x8ABC, 0x8ABD, 0x8ABF, 0xE39F, 0xE3A0, 0xE300,
      0xF400, 0xF41F, 0xF475, 0xF485, 0xF4FF].all
      (fun op : Word => decode op == .unassigned op) = true := by
  decide

/-- The first byte is the high byte (DE24). -/
theorem test_decode_big_endian :
    decodeTableWord 16 0xA20E = some (.ldI 0x20E) ∧
    hiByte 0xA20E = 0xA2 ∧ wordOfBytes 0xA2 0x0E = 0xA20E := by
  decide

/-! ### Control transfer (V-CF) -/

/-- CF3. -/
theorem test_ret_full_stack :
    see 0x00EE { State.reset with sp := 16, stack := State.reset.stack.set 15 0x0ABC }
      (fun t => (t.pc, t.sp, t.stack[15], t.fault)) =
    some (0x0ABC, 15, 0x0ABC, FaultLatch.clear) := by decide
/-- CF2. -/
theorem test_ret_underflow :
    see 0x00EE State.reset (fun t => (t.pc, t.sp, t.fault, t.beep)) =
    some (0x0200, 0, ⟨.stackUnderflow, 0x0200, 0⟩, false) := by decide
/-- CF6: a self-jump, timers still tick. -/
theorem test_jp_self : see 0x1200 (State.reset.setDt 1) (fun t => (t.pc, t.dt)) =
    some (0x0200, 0) := by decide
/-- CF10. -/
theorem test_call_sixteenth :
    see 0x2300 { State.reset with sp := 15 } (fun t => (t.pc, t.sp, t.stack[15], t.fault)) =
    some (0x0300, 16, 0x0202, FaultLatch.clear) := by decide
/-- CF11. -/
theorem test_call_overflow :
    see 0x2300 { State.reset with sp := 16 } (fun t => (t.pc, t.sp, t.fault)) =
    some (0x0200, 16, ⟨.stackOverflow, 0x0200, 0⟩) := by decide
/-- CF13, CF14. -/
theorem test_seKk :
    see 0x3100 ((withRegs [(1, 0)]).setPc 0x208) (fun t => t.pc) = some 0x20C ∧
    see 0x3100 ((withRegs [(1, 4)]).setPc 0x208) (fun t => t.pc) = some 0x20A := by decide
/-- CF16, CF17. -/
theorem test_sneKk :
    see 0x4A05 ((withRegs [(10, 5)]).setPc 0x300) (fun t => t.pc) = some 0x302 ∧
    see 0x4A05 ((withRegs [(10, 6)]).setPc 0x300) (fun t => t.pc) = some 0x304 := by decide
/-- CF18, CF19. -/
theorem test_seVy :
    see 0x5120 (withRegs [(1, 7), (2, 7)]) (fun t => t.pc) = some 0x204 ∧
    see 0x5120 (withRegs [(1, 7), (2, 8)]) (fun t => t.pc) = some 0x202 := by decide
/-- CF21, CF22. -/
theorem test_sneVy :
    see 0x9120 (withRegs [(1, 7), (2, 8)]) (fun t => t.pc) = some 0x204 ∧
    see 0x9120 (withRegs [(1, 7), (2, 7)]) (fun t => t.pc) = some 0x202 := by decide
/-- CF25: no wrap to 12 bits. -/
theorem test_jpV0_no_wrap : see 0xBFFF (withRegs [(0, 0xFF)]) (fun t => t.pc) = some 0x10FE := by
  decide
/-- CF28: an odd `PC`. -/
theorem test_fetch_odd :
    see 0x6107 (State.reset.setPc 0x201) (fun t => (t.pc, t.reg 1)) = some (0x203, 7) := by decide

/-! ### Load, arithmetic, logic, shift, random (V-ALU) -/

/-- AL2. -/
theorem test_ldKk_vf : see 0x6FAA (withRegs [(15, 1)]) (fun t => (t.pc, t.reg 15)) =
    some (0x202, 0xAA) := by decide
/-- AL3 (S3): no flag. -/
theorem test_addKk_no_flag :
    see 0x730A (withRegs [(3, 0xFA), (15, 1)]) (fun t => (t.reg 3, t.reg 15)) = some (4, 1) := by
  decide
/-- AL8. -/
theorem test_ldVy : see 0x8AF0 (withRegs [(15, 1)]) (fun t => (t.reg 10, t.reg 15)) =
    some (1, 1) := by decide
/-- AL9. -/
theorem test_orVy :
    see 0x8121 (withRegs [(1, 0xF0), (2, 0x0F), (15, 1)]) (fun t => (t.reg 1, t.reg 15)) =
    some (0xFF, 1) := by decide
/-- AL10. -/
theorem test_andVy :
    see 0x8122 (withRegs [(1, 0xF3), (2, 0x3C), (15, 1)]) (fun t => (t.reg 1, t.reg 15)) =
    some (0x30, 1) := by decide
/-- AL11. -/
theorem test_xorVy :
    see 0x8123 (withRegs [(1, 0xFF), (2, 0x0F), (15, 1)]) (fun t => (t.reg 1, t.reg 15)) =
    some (0xF0, 1) := by decide
/-- AL13 (S4), AL16: the carry at 255 and above. -/
theorem test_addVy :
    see 0x8124 (withRegs [(1, 0xC8), (2, 0x64)]) (fun t => (t.reg 1, t.reg 15)) = some (0x2C, 1) ∧
    see 0x8124 (withRegs [(1, 0x64), (2, 0x9B), (15, 1)]) (fun t => (t.reg 1, t.reg 15)) =
      some (0xFF, 0) := by decide
/-- AL18, AL19: register F as destination and as operand (R70). -/
theorem test_addVy_flag_register :
    see 0x8F14 (withRegs [(15, 0xC8), (1, 0x64)]) (fun t => t.reg 15) = some 0x2C ∧
    see 0x81F4 (withRegs [(1, 0xFA), (15, 0x0A)]) (fun t => (t.reg 1, t.reg 15)) = some (4, 1) := by
  decide
/-- AL21 (S5), AL22: borrow, and equal operands. -/
theorem test_subVy :
    see 0x8125 (withRegs [(1, 5), (2, 10), (15, 1)]) (fun t => (t.reg 1, t.reg 15)) =
      some (0xFB, 0) ∧
    see 0x8125 (withRegs [(1, 10), (2, 10)]) (fun t => (t.reg 1, t.reg 15)) = some (0, 1) := by
  decide
/-- AL27, AL30: `V[y]` is not read; with `x` = F the result survives. -/
theorem test_shr :
    see 0x8126 (withRegs [(1, 4), (2, 0xAA), (15, 1)]) (fun t => (t.reg 1, t.reg 2, t.reg 15)) =
      some (2, 0xAA, 0) ∧
    see 0x8F06 (withRegs [(15, 3)]) (fun t => t.reg 15) = some 1 := by decide
/-- AL31, AL32. -/
theorem test_subn :
    see 0x8127 (withRegs [(1, 5), (2, 10)]) (fun t => (t.reg 1, t.reg 15)) = some (5, 1) ∧
    see 0x8127 (withRegs [(1, 10), (2, 5), (15, 1)]) (fun t => (t.reg 1, t.reg 15)) =
      some (0xFB, 0) := by decide
/-- AL34, AL35. -/
theorem test_shl :
    see 0x812E (withRegs [(1, 0x81)]) (fun t => (t.reg 1, t.reg 15)) = some (2, 1) ∧
    see 0x812E (withRegs [(1, 0x7F), (15, 1)]) (fun t => (t.reg 1, t.reg 15)) =
      some (0xFE, 0) := by decide
/-- AL38, AL40: the byte the host holds on the port. -/
theorem test_rnd :
    see 0xC30F (State.reset.setRndPort (some 0xA7)) (fun t => (t.pc, t.reg 3)) = some (0x202, 7) ∧
    see 0xCFFF (State.reset.setRndPort (some 0x5A)) (fun t => t.reg 15) = some 0x5A := by decide

/-! ### Index register and memory (V-IM) -/

/-- IM2. -/
theorem test_ldI : see 0xAFFF (State.reset.setI 0x1234) (fun t => t.i) = some 0x0FFF := by decide
/-- IM3, IM5: 0xFFF does not exceed; the 16-bit wrap with the flag of the unreduced sum. -/
theorem test_addI :
    see 0xF11E ((withRegs [(1, 0x0F), (15, 1)]).setI 0x0FF0) (fun t => (t.i, t.reg 15)) =
      some (0x0FFF, 0) ∧
    see 0xF11E ((withRegs [(1, 1)]).setI 0xFFFF) (fun t => (t.i, t.reg 15)) = some (0, 1) := by
  decide
/-- IM7: the latched `VF` is the addend. -/
theorem test_addI_flag_register :
    see 0xFF1E ((withRegs [(15, 5)]).setI 0x0010) (fun t => (t.i, t.reg 15)) = some (0x0015, 0) := by
  decide
/-- IM9, IM11: the low four bits of `Vx`. -/
theorem test_ldF :
    see 0xF129 (withRegs [(1, 0x1A)]) (fun t => t.i) = some 0x0032 ∧
    see 0xF129 (withRegs [(1, 0x0F)]) (fun t => t.i) = some 0x004B := by decide
/-- IM15: the highest legal `I`. -/
theorem test_ldB :
    see 0xF133 ((withRegs [(1, 0x7B)]).setI 0x0FFD)
      (fun t => (t.mem.read 0xFFD, t.mem.read 0xFFE, t.mem.read 0xFFF, t.i)) =
    some (1, 2, 3, 0x0FFD) := by decide
/-- IM16, IM17. -/
theorem test_ldB_fault :
    see 0xF133 ((withRegs [(1, 0x7B)]).setI 0x0FFE) (fun t => (t.fault, t.mem.read 0xFFE)) =
      some (⟨.memData, 0x0200, 0x1000⟩, 0) ∧
    see 0xF133 ((withRegs [(1, 0x7B)]).setI 0x1234) (fun t => (t.fault, t.pc)) =
      some (⟨.memData, 0x0200, 0x1234⟩, 0x0200) := by decide
/-- IM18. -/
theorem test_stRegs :
    see 0xF255 ((withRegs [(0, 1), (1, 2), (2, 3), (3, 4)]).setI 0x400)
      (fun t => (t.mem.read 0x400, t.mem.read 0x401, t.mem.read 0x402, t.mem.read 0x403, t.i)) =
    some (1, 2, 3, 0, 0x400) := by decide
/-- IM20: not even the byte in range is written. -/
theorem test_stRegs_fault :
    see 0xF155 ((withRegs [(0, 0xAB), (1, 0xCD)]).setI 0x0FFF)
      (fun t => (t.fault, t.mem.read 0xFFF)) = some (⟨.memData, 0x0200, 0x1000⟩, 0) := by decide
/-- IM28: glyph 0 is in memory after reset. -/
theorem test_ldRegs_font :
    see 0xF465 State.reset (fun t => (t.reg 0, t.reg 1, t.reg 4, t.reg 5, t.i)) =
    some (0xF0, 0x90, 0xF0, 0, 0) := by decide
/-- IM27: no register is written. -/
theorem test_ldRegs_fault :
    see 0xF265 ((withRegs [(0, 9)]).setI 0x0FFE) (fun t => (t.fault, t.reg 0)) =
    some (⟨.memData, 0x0200, 0x1000⟩, 9) := by decide

/-! ### Framebuffer (V-DS) -/

/-- DS2, and one pixel of DS1: the pixel goes, `DP` is set, `VF` stays. -/
theorem test_cls :
    see 0x00E0 (withPixels [(63, 31)] { withRegs [(15, 1)] with dp := false })
      (fun t => (t.fb.pixel 63 31, t.dp, t.reg 15)) = some (false, true, 1) := by decide
/-- DS11: one pixel collides, one is set. -/
theorem test_drw_collision :
    see 0xD001 (withPixels [(0, 0)] ((State.reset.setI 0x300).store 0x300 [0xC0]))
      (fun t => (t.reg 15, t.fb.pixel 0 0, t.fb.pixel 1 0, t.fb.pixel 2 0)) =
    some (1, false, true, false) := by decide
/-- DS6, DS8: clipped at the corner, and no wrap of the origin. -/
theorem test_drw_clips :
    see 0xD012 (((withRegs [(0, 0x3E), (1, 0x1F)]).setI 0x20E).store 0x20E [0xFF, 0xFF])
      (fun t => (t.fb.pixel 61 31, t.fb.pixel 62 31, t.fb.pixel 63 31, t.fb.pixel 0 31,
        t.fb.pixel 62 0, t.reg 15)) = some (false, true, true, false, false, 0) ∧
    see 0xD011 (((withRegs [(0, 0x40), (15, 1)]).setI 0x300).store 0x300 [0xFF])
      (fun t => (t.fb.pixel 0 0, t.fb.pixel 63 0, t.reg 15, t.dp)) =
      some (false, false, 0, true) := by decide

/-! ### Keys and timers (V-KT) -/

/-- KT2, KT3: the index is the low four bits. -/
theorem test_skp :
    see 0xE19E (withKeys [6, 8] (withRegs [(1, 7)])) (fun t => t.pc) = some 0x202 ∧
    see 0xE19E (withKeys [7] (withRegs [(1, 0x17)])) (fun t => t.pc) = some 0x204 := by decide
/-- KT4, KT5. -/
theorem test_sknp :
    see 0xE1A1 (withRegs [(1, 7)]) (fun t => t.pc) = some 0x204 ∧
    see 0xE1A1 (withKeys [7] (withRegs [(1, 7)])) (fun t => t.pc) = some 0x202 := by decide
/-- KT6: waiting is the identity. -/
theorem test_ldVxK_waits :
    see 0xF10A (((withRegs [(1, 0x33)]).setPc 0x204).setDt 5 |>.setSt 5)
      (fun t => (t.pc, t.dt, t.st, t.reg 1, t.beep)) = some (0x204, 5, 5, 0x33, false) := by decide
/-- KT7: the lowest key; the tick and the beep resume. -/
theorem test_ldVxK_completes :
    see 0xF10A (withKeys [9, 7] ((State.reset.setPc 0x204).setSt 2))
      (fun t => (t.pc, t.st, t.reg 1, t.beep)) = some (0x206, 1, 7, true) := by decide
/-- KT11: read before the tick. -/
theorem test_ldVxDt : see 0xF207 (State.reset.setDt 5) (fun t => (t.reg 2, t.dt)) =
    some (5, 4) := by decide
/-- KT14, KT17. -/
theorem test_ldDtVx :
    see 0xF015 (withRegs [(0, 5)]) (fun t => t.dt) = some 4 ∧
    see 0xF015 (withRegs [(0, 0xFF)]) (fun t => t.dt) = some 254 := by decide
/-- KT19, KT20: storing 2 beeps at once, storing 1 never does. -/
theorem test_ldStVx :
    see 0xF018 (withRegs [(0, 2)]) (fun t => (t.st, t.beep)) = some (1, true) ∧
    see 0xF018 (withRegs [(0, 1)]) (fun t => (t.st, t.beep)) = some (0, false) := by decide

/-! ### Unassigned words, faults and the halt (V-UN, V-FT) -/

/-- UN1, UN6. -/
theorem test_unassigned :
    see 0x0000 (State.reset.setDt 3) (fun t => (t.pc, t.dt)) = some (0x202, 2) ∧
    see 0x5121 (withRegs [(1, 7), (2, 7)]) (fun t => t.pc) = some 0x202 := by decide
/-- FT1, FT2: the highest legal fetch address, and the one above. -/
theorem test_fetch_limit :
    see 0x0000 ((State.reset.setPc 0xFFE).setDt 2) (fun t => (t.pc, t.dt, t.fault)) =
      some (0x1000, 1, FaultLatch.clear) ∧
    (cycle? (((State.reset.setPc 0xFFF).setDt 2).setSt 2)).map
      (fun t => (t.pc, t.dt, t.st, t.beep, t.fault)) =
      some (0xFFF, 2, 2, false, ⟨.memFetch, 0xFFF, 0x1000⟩) := by decide
/-- FT4: the recorded address is `PC` when `PC` is above 0xFFF. -/
theorem test_fetch_far :
    (cycle? (State.reset.setPc 0x10FE)).map (fun t => t.fault) =
    some ⟨.memFetch, 0x10FE, 0x10FE⟩ := by decide
/-- R61: a halted core does not run the instruction at `PC`. -/
theorem test_halt :
    see 0x6105 ((State.reset.setDt 2).raise .stackUnderflow 0) (fun t => (t.pc, t.dt, t.reg 1)) =
    some (0x200, 2, 0) := by decide

/-! ### Host operations (V-HO) and the assembler -/

/-- HO3, HO6: LOAD writes its bytes and nothing else. -/
theorem test_load :
    (match hostLoad Config.standard [0x11, 0x22] ((State.reset.store 0x200 [0xAA, 0xBB, 0xCC]).setPc
        0x300) with
      | .ok t => some (t.mem.read 0x200, t.mem.read 0x201, t.mem.read 0x202, t.pc)
      | .error _ => none) = some (0x11, 0x22, 0xCC, 0x300) := by decide
/-- HO9: DRAWTAKE twice after reset. -/
theorem test_drawTake :
    (hostDrawTake State.reset).1 = true ∧ (hostDrawTake (hostDrawTake State.reset).2).1 = false := by
  decide
/-- HO12. -/
theorem test_status :
    State.status { State.reset.setSt 3 with fault := ⟨.memData, 0x0200, 0x1000⟩ } =
    { cause := 4, pc := 0x0200, addr := 0x1000, dt := 0, st := 3, dtZero := true, stZero := false,
      sndActive := true } := by decide
/-- HO11: the linear indices of two pixels. -/
theorem test_fbLinear :
    hostFbLinear (withPixels [(62, 31)] State.reset) 2046 = true ∧
    hostFbLinear (withPixels [(62, 31)] State.reset) 2047 = false := by decide
/-- HO13. -/
theorem test_hostStep :
    (match hostStep 0xFF (vec 0xC1FF State.reset) with
      | .next t => some (t.reg 1, t.rndPort)
      | .fault _ => none
      | .refused _ => none) = some (0xFF, none) := by decide
/-- HO1: RESET forgets a fault, a register, a byte and a key. -/
theorem test_reset :
    hostReset Config.standard (withKeys [2] (((withRegs [(3, 9)]).store 0x300 [7]).raise
      .stackOverflow 0)) = State.reset := by decide
/-- The font region without a font reads as zeros (R36), and the entry point is the parameter. -/
theorem test_reset_parameters :
    (fun s : State => (s.mem.read 0, s.mem.read 0x4F, s.pc))
      (hostReset { progBase := 0x600, fontPresent := false } State.reset) = (0, 0, 0x600) := by decide
/-- The first lines of program P1 of spec/95 with a label, and a number that does not fit. -/
theorem test_assemble :
    assemble Config.standard
      [.line .ld [.reg 0, .num 0], .line .ld [.reg 1, .num 5], .label 0, .line .add [.reg 0, .reg 1],
        .line .jp [.label 0], .db [0xFF]] =
      some [0x60, 0x00, 0x61, 0x05, 0x80, 0x14, 0x12, 0x04, 0xFF] ∧
    asmInstr .ld [.reg 0, .num 256] = none := by decide

/-! ### Witnesses: the hypotheses of the statements can be met -/

/-- The answer of a run of host operations, as one that can be compared. -/
def run? (c : Config) (l : List HostAction) (s : State) : Option State :=
  match hostRun c l s with
  | .next t => some t
  | .fault _ => none
  | .refused _ => none

theorem hostRun_run? {c : Config} {l : List HostAction} {s : State}
    (h : (run? c l s).isSome = true) : hostRun c l s = .next ((run? c l s).getD s) := by
  revert h
  unfold run?
  cases hostRun c l s <;> simp

/-- A halted core, on an instruction that would change a register. -/
def haltedState : State := vec 0x6105 (State.reset.raise .stackUnderflow 0)

/-- A running core on `LD V1, 5`. -/
def runningState : State := vec 0x6105 (withRegs [(1, 9)])

theorem witness_StepRunsTheFetchedInstruction :
    ∃ (s t : State) (hi lo : Byte) (i : Instr), Running s ∧ s.pc.toNat ≤ 0xFFE ∧
      s.mem.read s.pc.toNat = hi ∧ s.mem.read (s.pc.toNat + 1) = lo ∧
      decodeBytes [hi, lo] = .ok (i, []) ∧ exec i s = .next t :=
  ⟨vec 0x6105 (State.reset.setPc 0xFFE), _, 0x61, 0x05, .ldKk 1 5, by decide, by decide, by decide,
    by decide, rfl, exec_afterExec (by decide)⟩

theorem witness_TimersTickOncePerCompletedCycle :
    (∃ s u : State, cycleEnd s = .completed ∧ exec s.fetchInstr s = .next u ∧ u.st.toNat = 2) ∧
    (∃ s t : State, cycleEnd s = .halted ∧ step s = .next t) ∧
    (∃ s t : State, cycleEnd s = .faulted ∧ step s = .next t) ∧
    (∃ s t : State, cycleEnd s = .waiting ∧ step s = .next t) :=
  ⟨⟨vec 0xF018 (withRegs [(0, 2)]), _, by decide, exec_afterExec (by decide), by decide⟩,
    ⟨haltedState, _, by decide, step_afterStep (by decide)⟩,
    ⟨vec 0x00EE State.reset, _, by decide, step_afterStep (by decide)⟩,
    ⟨vec 0xF10A State.reset, _, by decide, step_afterStep (by decide)⟩⟩

theorem witness_HaltedCoreChangesNothing : ∃ s : State, ¬ Running s ∧ s.fetchInstr = .ldKk 1 5 :=
  ⟨haltedState, by decide, by decide⟩

theorem witness_WaitingCyclesChangeNothing :
    ∃ (s : State) (x : RegIdx), Running s ∧ s.pc.toNat ≤ 0xFFE ∧ s.fetchInstr = .ldVxK x ∧
      (∀ j : KeyIdx, s.key j = false) :=
  ⟨vec 0xF10A (State.reset.setPc 0xFFE), 1, by decide, by decide, by decide, by decide⟩

theorem witness_FetchAboveMemoryFaults :
    ∃ s : State, Running s ∧ s.pc.toNat > 0xFFE ∧ s.pc.toNat = 0xFFF :=
  ⟨State.reset.setPc 0xFFF, by decide, by decide, by decide⟩

/-- Every row of table X1, at the lowest `I` or the `SP` that faults, and one step below it. -/
theorem witness_InstructionsFaultByTableX1 :
    faultOf (.call 0x300) { State.reset with sp := 16 } = some (.stackOverflow, 0) ∧
    faultOf (.call 0x300) { State.reset with sp := 15 } = none ∧
    faultOf .ret State.reset = some (.stackUnderflow, 0) ∧
    faultOf .ret { State.reset with sp := 1 } = none ∧
    faultOf (.drw 0 1 2) (State.reset.setI 0xFFF) = some (.memData, 0x1000) ∧
    faultOf (.drw 0 1 1) (State.reset.setI 0xFFF) = none ∧
    faultOf (.drw 0 1 0) (State.reset.setI 0x1234) = none ∧
    faultOf (.ldB 1) (State.reset.setI 0xFFE) = some (.memData, 0x1000) ∧
    faultOf (.ldB 1) (State.reset.setI 0xFFD) = none ∧
    faultOf (.stRegs 15) (State.reset.setI 0xFF1) = some (.memData, 0x1000) ∧
    faultOf (.stRegs 15) (State.reset.setI 0xFF0) = none ∧
    faultOf (.ldRegs 0) (State.reset.setI 0x1234) = some (.memData, 0x1234) ∧
    faultOf (.ldRegs 0) (State.reset.setI 0xFFF) = none := by decide

theorem witness_FaultedCyclesArePrecise :
    ∃ s t : State, Running s ∧ step s = .next t ∧ ¬ Running t :=
  ⟨vec 0xF133 (State.reset.setI 0xFFE), _, by decide, step_afterStep (by decide), by decide⟩

theorem witness_CycleFaultsExactlyWhenPredicted :
    (∃ s t : State, step s = .next t ∧ cycleEnd s = .faulted) ∧
    (∃ s t : State, step s = .next t ∧ cycleEnd s = .completed) :=
  ⟨⟨State.reset.setPc 0xFFF, _, step_afterStep (by decide), by decide⟩,
    ⟨runningState, _, step_afterStep (by decide), by decide⟩⟩

theorem witness_WellFormedCyclesNeverFault :
    ∃ (c : Config) (s t : State), Running s ∧ WellFormedCycle c s ∧ step s = .next t :=
  ⟨Config.standard, vec 0x2300 { State.reset with sp := 14 }, _, by decide,
    ⟨by decide, by decide, by decide, by decide, by decide, by decide, by decide, by decide⟩,
    step_afterStep (by decide)⟩

theorem witness_KeySkipsTestTheLatch :
    ∃ (s : State) (x : RegIdx) (k : KeyIdx), k.val = (s.reg x).toNat % 16 ∧ s.key k = true :=
  ⟨withKeys [15] (withRegs [(1, 0xFF)]), 1, 15, by decide, by decide⟩

theorem witness_CallPushesTheReturnAddress :
    (∃ s : State, s.sp.val < 16 ∧ s.sp.val = 15) ∧ (∃ s : State, s.sp.val = 16) :=
  ⟨⟨{ State.reset with sp := 15 }, by decide, by decide⟩, ⟨{ State.reset with sp := 16 }, by decide⟩⟩

theorem witness_RetPopsIntoPc :
    (∃ (s : State) (k : Fin 16), s.sp.val = k.val + 1 ∧ s.sp.val = 16) ∧
    (∃ (s : State) (k : Fin 16), s.sp.val = k.val + 1 ∧ s.sp.val = 1) ∧
    (∃ s : State, s.sp.val = 0) :=
  ⟨⟨{ State.reset with sp := 16 }, 15, by decide, by decide⟩,
    ⟨{ State.reset with sp := 1 }, 0, by decide, by decide⟩, ⟨State.reset, by decide⟩⟩

theorem witness_RetUndoesCall :
    ∃ (s t u : State) (nnn : BitVec 12), s.sp.val < 16 ∧ exec (.call nnn) s = .next t ∧
      exec .ret t = .next u :=
  ⟨{ State.reset with sp := 15 }, _, _, 0x300, by decide, exec_afterExec (by decide),
    exec_afterExec (by decide)⟩

theorem witness_UnassignedOnlyAdvances :
    ∃ (s : State) (op : Word), Running s ∧ s.pc.toNat ≤ 0xFFE ∧ s.fetchInstr = .unassigned op :=
  ⟨vec 0x5121 (State.reset.setPc 0xFFE), 0x5121, by decide, by decide, by decide⟩

theorem witness_AddAndSubtractWriteTheFlag :
    ∃ (s : State) (x y : RegIdx) (a b : Nat), a = (s.reg x).toNat ∧ b = (s.reg y).toNat ∧
      a + b = 256 ∧ a < b :=
  ⟨withRegs [(1, 1), (2, 255)], 1, 2, 1, 255, by decide, by decide, by decide, by decide⟩

theorem witness_ShiftsMoveOneBitIntoTheFlag :
    ∃ (s : State) (x : RegIdx) (a : Nat), a = (s.reg x).toNat ∧ a = 0x81 :=
  ⟨withRegs [(1, 0x81)], 1, 0x81, by decide, rfl⟩

theorem witness_StepGivesRndTheHostsByte :
    ∃ (s : State) (x : RegIdx) (kk : Byte), Running s ∧ s.pc.toNat ≤ 0xFFE ∧
      s.fetchInstr = .rnd x kk :=
  ⟨vec 0xC30F State.reset, 3, 0x0F, by decide, by decide, by decide⟩

theorem witness_OnlyRndReadsTheRandomInput :
    ∃ s : State, (∀ x kk, s.fetchInstr ≠ .rnd x kk) ∧ Running s :=
  ⟨runningState, fun x kk => by
    rw [show runningState.fetchInstr = .ldKk 1 5 by decide]
    exact nofun, by decide⟩

theorem witness_AddIndexSetsTheFlag :
    ∃ (s : State) (x : RegIdx) (sum : Nat), sum = s.i.toNat + (s.reg x).toNat ∧ sum = 0x1000 :=
  ⟨(withRegs [(1, 1)]).setI 0xFFF, 1, 0x1000, by decide, rfl⟩

theorem witness_BcdStoresThreeDigits :
    (∃ (s : State) (x : RegIdx) (d : Nat), s.mem.wf ∧ d = (s.reg x).toNat ∧ s.i.toNat ≤ 0xFFD ∧
      s.i.toNat = 0xFFD) ∧
    (∃ (s : State) (x : RegIdx) (d : Nat), s.mem.wf ∧ d = (s.reg x).toNat ∧ s.i.toNat > 0xFFD ∧
      s.i.toNat = 0xFFE) :=
  ⟨⟨(withRegs [(1, 254)]).setI 0xFFD, 1, 254, by decide, by decide, by decide, by decide⟩,
    ⟨(withRegs [(1, 254)]).setI 0xFFE, 1, 254, by decide, by decide, by decide, by decide⟩⟩

theorem witness_StoreRegistersAscending :
    (∃ (s : State) (x : RegIdx), s.mem.wf ∧ s.ea x.val ≤ 0xFFF ∧ s.ea x.val = 0xFFF ∧ x = 15) ∧
    (∃ (s : State) (x : RegIdx), s.mem.wf ∧ s.ea x.val > 0xFFF ∧ s.ea 0 = 0xFFF) :=
  ⟨⟨State.reset.setI 0xFF0, 15, by decide, by decide, by decide, rfl⟩,
    ⟨State.reset.setI 0xFFF, 1, by decide, by decide, by decide⟩⟩

theorem witness_LoadRegistersAscending :
    (∃ (s : State) (x : RegIdx), s.ea x.val ≤ 0xFFF ∧ s.ea x.val = 0xFFF ∧ x = 0) ∧
    (∃ (s : State) (x : RegIdx), s.ea x.val > 0xFFF ∧ s.ea x.val = 0x1000 ∧ x = 15) :=
  ⟨⟨State.reset.setI 0xFFF, 0, by decide, by decide, rfl⟩,
    ⟨State.reset.setI 0xFF1, 15, by decide, by decide, rfl⟩⟩

theorem witness_StoresAreSeenByTheNextFetch :
    ∃ (s t : State) (x : RegIdx), s.mem.wf ∧ Running s ∧ s.pc.toNat ≤ 0xFFE ∧
      s.fetchInstr = .stRegs x ∧ 1 ≤ x.val ∧ s.i = s.pc + 2 ∧ s.ea x.val ≤ 0xFFF ∧
      step s = .next t :=
  ⟨vec 0xF155 ((withRegs [(0, 0x6A), (1, 0xBC)]).setI 0x202), _, 1, by decide, by decide, by decide,
    by decide, by decide, by decide, by decide, step_afterStep (by decide)⟩

/-- The last byte of memory as a sprite row, `n` = 0 with `I` out of range, a collision and none. -/
theorem witness_DrwXorsTheSpritePixelByPixel :
    (∃ (s : State) (x y : RegIdx) (n : BitVec 4) (cx cy : Nat), cx = (s.reg x).toNat ∧
      cy = (s.reg y).toNat ∧ (n = 0 ∨ s.ea (n.toNat - 1) ≤ 0xFFF) ∧ s.ea 0 = 0xFFF ∧ n = 1 ∧
      collides s.mem (s.ea 0) cx cy n.toNat s.fb) ∧
    (∃ (s : State) (x y : RegIdx) (n : BitVec 4) (cx cy : Nat), cx = (s.reg x).toNat ∧
      cy = (s.reg y).toNat ∧ (n = 0 ∨ s.ea (n.toNat - 1) ≤ 0xFFF) ∧ s.ea 0 = 0x1234 ∧ n = 0 ∧
      ¬ collides s.mem (s.ea 0) cx cy n.toNat s.fb) := by
  refine ⟨⟨withPixels [(63, 31)] (((withRegs [(0, 63), (1, 31)]).setI 0xFFF).store 0xFFF [0x80]),
    0, 1, 1, 63, 31, by decide, by decide, by decide, by decide, rfl, 63, 31, by decide, by decide,
    by decide⟩, ⟨State.reset.setI 0x1234, 0, 1, 0, 0, 0, by decide, by decide, by decide, by decide,
    rfl, ?_⟩⟩
  rintro ⟨px, py, _, _, h⟩
  rw [show (State.reset.setI 0x1234).fb = blankFramebuffer from rfl, Framebuffer.pixel] at h
  split at h <;> simp [blankFramebuffer] at h

theorem witness_DrawingTwiceRestoresTheFramebuffer :
    ∃ (s t u : State) (x y : RegIdx) (n : BitVec 4), x ≠ vf ∧ y ≠ vf ∧
      (n = 0 ∨ s.ea (n.toNat - 1) ≤ 0xFFF) ∧ exec (.drw x y n) s = .next t ∧
      exec (.drw x y n) t = .next u ∧ s.fb = blankFramebuffer :=
  ⟨((withRegs [(0, 63), (1, 31)]).setI 0xFFF).store 0xFFF [0x80], _, _, 0, 1, 1, by decide,
    by decide, by decide, exec_afterExec (by decide), exec_afterExec (by decide), rfl⟩

theorem witness_KeyWaitTakesTheLowestKey :
    (∃ (s : State) (k : KeyIdx), s.key k = true ∧ (∀ j : KeyIdx, j < k → s.key j = false) ∧
      s.key 15 = true ∧ k = 7) ∧
    (∃ (s : State) (k : KeyIdx), s.key k = true ∧ (∀ j : KeyIdx, j < k → s.key j = false) ∧
      k = 15) ∧
    (∃ s : State, ∀ j : KeyIdx, s.key j = false) :=
  ⟨⟨withKeys [7, 15] State.reset, 7, by decide, by decide, by decide, rfl⟩,
    ⟨withKeys [15] State.reset, 15, by decide, by decide, rfl⟩, ⟨State.reset, by decide⟩⟩

theorem witness_TimerStoresTickInTheirOwnCycle :
    (∃ (s t : State) (x : RegIdx), Running s ∧ s.pc.toNat ≤ 0xFFE ∧ step s = .next t ∧
      s.fetchInstr = .ldDtVx x) ∧
    (∃ (s t : State) (x : RegIdx), Running s ∧ s.pc.toNat ≤ 0xFFE ∧ step s = .next t ∧
      s.fetchInstr = .ldStVx x ∧ (s.reg x).toNat = 2) :=
  ⟨⟨vec 0xF015 (withRegs [(0, 0)]), _, 0, by decide, by decide, step_afterStep (by decide),
      by decide⟩,
    ⟨vec 0xF018 (withRegs [(0, 2)]), _, 0, by decide, by decide, step_afterStep (by decide),
      by decide, by decide⟩⟩

/-- `LD V1, 5` is not among the instructions that the four statements of R10 to R21 except. -/
theorem witness_WhoMayChangeWhat :
    ∃ s t : State, step s = .next t ∧ s.fetchInstr = .ldKk 1 5 ∧ s.dp = true ∧
      destination 2 s.fetchInstr = false ∧ destination vf s.fetchInstr = false ∧
      writesFlag s.fetchInstr = false :=
  ⟨runningState, _, step_afterStep (by decide), by decide, by decide, by decide, by decide,
    by decide⟩

theorem witness_OnlyTwoInstructionsStore :
    ∃ s t : State, step s = .next t ∧ (∀ x, s.fetchInstr ≠ .ldB x) ∧
      (∀ x, s.fetchInstr ≠ .stRegs x) := by
  obtain ⟨s, t, h, hi, _⟩ := witness_WhoMayChangeWhat
  exact ⟨s, t, h, fun x => by rw [hi]; exact nofun, fun x => by rw [hi]; exact nofun⟩

theorem witness_OnlyClsAndDrwTouchTheDisplay :
    ∃ s t : State, step s = .next t ∧ s.fetchInstr ≠ .cls ∧ (∀ x y n, s.fetchInstr ≠ .drw x y n) ∧
      s.dp = true := by
  obtain ⟨s, t, h, hi, hd, _⟩ := witness_WhoMayChangeWhat
  exact ⟨s, t, h, by rw [hi]; exact nofun, fun x y n => by rw [hi]; exact nofun, hd⟩

theorem witness_OnlyTheirInstructionsWriteIndexStackAndKeys :
    ∃ s t : State, step s = .next t ∧ (∀ a, s.fetchInstr ≠ .ldI a) ∧ (∀ x, s.fetchInstr ≠ .addI x) ∧
      (∀ x, s.fetchInstr ≠ .ldF x) ∧ (∀ a, s.fetchInstr ≠ .call a) ∧ s.fetchInstr ≠ .ret := by
  obtain ⟨s, t, h, hi, _⟩ := witness_WhoMayChangeWhat
  exact ⟨s, t, h, fun a => by rw [hi]; exact nofun, fun x => by rw [hi]; exact nofun,
    fun x => by rw [hi]; exact nofun, fun a => by rw [hi]; exact nofun, by rw [hi]; exact nofun⟩

theorem witness_OnlyNamedRegistersAndTheFlagChange :
    (∃ (s t : State) (r : RegIdx), step s = .next t ∧ destination r s.fetchInstr = false ∧
      (r = vf → writesFlag s.fetchInstr = false) ∧ r = vf) ∧
    (∃ s t : State, step s = .next t ∧ cycleEnd s = .completed ∧ writesFlag s.fetchInstr = true ∧
      destination vf s.fetchInstr = false) :=
  ⟨⟨runningState, _, vf, step_afterStep (by decide), by decide, fun _ => by decide, rfl⟩,
    ⟨vec 0x8124 (withRegs [(1, 200), (2, 100)]), _, step_afterStep (by decide), by decide,
      by decide, by decide⟩⟩

theorem witness_DrawPendingIsNotRead :
    ∃ (s t : State) (b : Bool), step s = .next t ∧ b ≠ s.dp ∧ s.fetchInstr = .cls :=
  ⟨vec 0x00E0 State.reset, _, false, step_afterStep (by decide), by decide, by decide⟩

theorem witness_SoundTimerIsNotRead :
    ∃ (s t : State) (b : Byte), step s = .next t ∧ b ≠ s.st ∧ b = 2 :=
  ⟨runningState, _, 2, step_afterStep (by decide), by decide, rfl⟩

theorem witness_DeadStackEntriesAreUnobservable :
    ∃ (s t : State) (st : Vector Word 16), (∀ k : Fin 16, k.val < s.sp.val → st[k] = s.stack[k]) ∧
      st ≠ s.stack ∧ step s = .next t ∧ s.fetchInstr = .ret :=
  ⟨vec 0x00EE { State.reset with sp := 1 }, _, State.reset.stack.set 1 0xABC, by decide, by decide,
    step_afterStep (by decide), by decide⟩

theorem witness_DecodeInvertsEncode :
    (∃ i : Instr, i.wellFormed = true ∧ i = .drw 1 2 5) ∧
    (∃ i : Instr, i.wellFormed = true ∧ i = .unassigned 0x0000) :=
  ⟨⟨.drw 1 2 5, by decide, rfl⟩, ⟨.unassigned 0x0000, by decide, rfl⟩⟩

/-- From a halted core whose `PC` is out of range, and from the reset state. -/
theorem witness_PlacedInstructionIsExecuted :
    (∃ (s t u : State) (i : Instr), s.mem.wf ∧ i.wellFormed = true ∧
      u = s.withFetchWord 16 (encode i).toNat ∧ exec i u = .next t ∧ s.pc.toNat = 0xFFF) ∧
    (∃ (s t u : State) (i : Instr), s.mem.wf ∧ i.wellFormed = true ∧
      u = s.withFetchWord 16 (encode i).toNat ∧ exec i u = .next t ∧ s = State.reset) :=
  ⟨⟨(State.reset.setPc 0xFFF).raise .memFetch 0x1000, _, _, .ldKk 1 5, by decide, by decide, rfl,
      exec_afterExec (by decide), by decide⟩,
    ⟨State.reset, _, _, .jp 0xFFF, by decide, by decide, rfl, exec_afterExec (by decide), rfl⟩⟩

/-- A line it accepts, with the largest `n`; and the same line with the least number that does not
fit, of each width. -/
theorem witness_AssemblerLinesMeanTheirInstructions :
    (∃ i m operands value, asmInstr m operands = some i ∧ .num value ∈ operands ∧
      value = 15 ∧ i = .drw 1 2 15) ∧
    (∃ i m before after w field value, asmLine i = some (m, before ++ .num field :: after) ∧
      numberField i = some (w, field) ∧ value ≥ 2 ^ w ∧ w = 4 ∧ value = 16) ∧
    (∃ i m before after w field value, asmLine i = some (m, before ++ .num field :: after) ∧
      numberField i = some (w, field) ∧ value ≥ 2 ^ w ∧ w = 8 ∧ value = 256) ∧
    (∃ i m before after w field value, asmLine i = some (m, before ++ .num field :: after) ∧
      numberField i = some (w, field) ∧ value ≥ 2 ^ w ∧ w = 12 ∧ value = 4096) :=
  ⟨⟨.drw 1 2 15, .drw, [.reg 1, .reg 2, .num 15], 15, rfl, by decide, rfl, rfl⟩,
    ⟨.drw 1 2 15, .drw, [.reg 1, .reg 2], [], 4, 15, 16, rfl, rfl, by decide, rfl, rfl⟩,
    ⟨.ldKk 1 5, .ld, [.reg 1], [], 8, 5, 256, rfl, rfl, by decide, rfl, rfl⟩,
    ⟨.jpV0 0x234, .jp, [.reg 0], [], 12, 0x234, 4096, rfl, rfl, by decide, rfl, rfl⟩⟩

/-- A running state of the middle of a program, and a halted one, satisfy the invariant. -/
theorem inv_vector : Inv (vec 0x6105 ((withRegs [(1, 9)]).setI 0xFFF)) :=
  ⟨by decide, by decide, by decide, fun _ => by decide, fun h => absurd (by decide) h,
    fun h => absurd h (by decide), fun h => absurd h (by decide), fun h => absurd h (by decide),
    fun h => absurd h (by decide)⟩

theorem inv_halted : Inv haltedState :=
  ⟨by decide, by decide, by decide, fun h => absurd h (by decide), fun _ => by decide,
    fun h => absurd h (by decide), fun _ => by decide, fun h => absurd h (by decide),
    fun h => absurd h (by decide)⟩

theorem witness_CycleKeepsInvariant : ∃ s t : State, Inv s ∧ step s = .next t ∧ Running s :=
  ⟨_, _, inv_vector, step_afterStep (by decide), by decide⟩

/-- The lowest and the highest `PROG_BASE`, and a font that is left out. -/
theorem witness_HostRunKeepsInvariant :
    (∃ (c : Config) (s : State), c.Valid ∧ Inv s ∧ c.progBase = 80 ∧ Running s) ∧
    (∃ (c : Config) (s : State), c.Valid ∧ Inv s ∧ c.progBase = 0xFFE ∧ ¬ Running s) ∧
    (∃ (c : Config) (s : State), c.Valid ∧ Inv s ∧ c.progBase = 0 ∧ c.fontPresent = false) :=
  ⟨⟨{ progBase := 80 }, _, by decide, inv_vector, rfl, by decide⟩,
    ⟨{ progBase := 0xFFE }, _, by decide, inv_halted, rfl, by decide⟩,
    ⟨{ progBase := 0, fontPresent := false }, _, by decide, inv_vector, rfl, rfl⟩⟩

theorem witness_ResetForgetsTheStateBefore :
    ∃ (c : Config) (a : Nat), c.Valid ∧ a < 4096 ∧ a = 79 ∧ c.fontPresent = true :=
  ⟨Config.standard, 79, by decide, by decide, rfl, rfl⟩

/-- The longest image that fits, and one byte more (HO4, HO5). -/
theorem witness_LoadCopiesOrRefusesTheWholeImage :
    (∃ (c : Config) (s : State) (bytes : List Byte), c.Valid ∧ s.mem.wf ∧
      bytes.length ≤ 4096 - c.progBase ∧ bytes.length = 3584) ∧
    (∃ (c : Config) (s : State) (bytes : List Byte), c.Valid ∧ s.mem.wf ∧
      bytes.length > 4096 - c.progBase ∧ bytes.length = 3585) := by
  refine ⟨⟨Config.standard, State.reset, List.replicate 3584 1, by decide, by decide, ?_, ?_⟩,
    ⟨Config.standard, State.reset, List.replicate 3585 1, by decide, by decide, ?_, ?_⟩⟩ <;>
    rw [List.length_replicate] <;> decide

/-- HO10: one `CLS` between two takes, and none. -/
theorem witness_DrawTakeReportsDrawsSinceTheLastTake :
    ∃ (c : Config) (s t u v : State) (b b' : Bool) (actions : List HostAction),
      (∀ a ∈ actions, a ≠ .drawTake) ∧ hostAct c .drawTake s = .next (.drawPending b, t) ∧
      hostRun c actions t = .next u ∧ hostAct c .drawTake u = .next (.drawPending b', v) ∧
      b' = true :=
  ⟨Config.standard, vec 0x00E0 State.reset, _, _, _, true, true, [.fbRead, .step 0], by decide, rfl,
    hostRun_run? (by decide), rfl, rfl⟩

/-- Two keys; and a state with each cause. -/
theorem witness_KeySetAndHostReads :
    (∃ k j : KeyIdx, j ≠ k ∧ k = 15) ∧ (∃ s : State, Running s) ∧
    (∃ s : State, s.fault.cause = .stackOverflow) ∧ (∃ s : State, s.fault.cause = .stackUnderflow) ∧
    (∃ s : State, s.fault.cause = .memFetch) ∧ (∃ s : State, s.fault.cause = .memData) :=
  ⟨⟨15, 0, by decide, rfl⟩, ⟨State.reset, rfl⟩, ⟨State.reset.raise .stackOverflow 0, rfl⟩,
    ⟨State.reset.raise .stackUnderflow 0, rfl⟩, ⟨State.reset.raise .memFetch 0x1000, rfl⟩,
    ⟨State.reset.raise .memData 0x1000, rfl⟩⟩

theorem witness_SelfJumpOnlyCountsTimersDown :
    (∃ s : State, AtSelfJump s ∧ s.st.toNat = 2) ∧ (∃ s : State, AtSelfJump s ∧ s.pc = 0xFFE) :=
  ⟨⟨vec 0x1200 (State.reset.setSt 2), ⟨by decide, by decide, by decide⟩, by decide⟩,
    ⟨vec 0x1FFE (State.reset.setPc 0xFFE), ⟨by decide, by decide, by decide⟩, rfl⟩⟩

/-- The run of R182 after reset, at its last no-op (`k` + 1 = 1792); and the shortest runs up to the
end of memory, from the last even and the last odd address that can be fetched. -/
theorem witness_ZeroBytesRunOffTheEnd :
    (∃ (k : Nat) (s : State), Running s ∧
      (∀ a, s.pc.toNat ≤ a → a ≤ 0xFFF → s.mem.read a = 0) ∧ s.pc.toNat + 2 * k ≤ 0xFFE ∧
      s = State.reset ∧ k = 1791) ∧
    (∃ s : State, Running s ∧ (∀ a, s.pc.toNat ≤ a → a ≤ 0xFFF → s.mem.read a = 0) ∧
      s.pc.toNat = 0xFFE ∧ s.st.toNat = 2) ∧
    (∃ s : State, Running s ∧ (∀ a, s.pc.toNat ≤ a → a ≤ 0xFFF → s.mem.read a = 0) ∧
      s.pc.toNat = 0xFFD) :=
  ⟨⟨1791, State.reset, rfl,
      fun _ h _ => Memory.unlisted_above_font (Nat.le_trans (by decide) h), by decide, rfl, rfl⟩,
    ⟨(State.reset.setPc 0xFFE).setSt 2, rfl,
      fun _ h _ => Memory.unlisted_above_font (Nat.le_trans (by decide) h), by decide, by decide⟩,
    ⟨State.reset.setPc 0xFFD, rfl,
      fun _ h _ => Memory.unlisted_above_font (Nat.le_trans (by decide) h), by decide⟩⟩

theorem witness_OnlyResetLeavesTheHalt :
    ∃ (c : Config) (actions : List HostAction) (s t : State), ¬ Running s ∧
      (∀ a ∈ actions, a ≠ .reset) ∧ hostRun c actions s = .next t :=
  ⟨Config.standard, [.load [1, 2], .keySet 3 true, .step 0, .drawTake], haltedState, _, by decide,
    by decide, hostRun_run? (by decide)⟩

end Sys2Proof.Tests
end

section
/-!
What an instruction can do to the state: one inductive relation, met by every answer of `exec`. The
proofs of who writes what and of the invariant go through its cases.
-/

namespace Sys2Proof.Machine

open Sys2Proof.Safety

/-- What an instruction can do to the state, with its guards: the fault of table X1, the wait of
R67, or its effect. Instructions with one frame share a case, which keeps only the facts about the
written values that the rules of spec/10_state.md speak of. -/
inductive Effect (s : State) : Instr → State → Prop
  | fault {i c a} (cause : faultOf i s = some (c, a)) : Effect s i (s.raise c a)
  | wait {x} (released : s.lowestKey = none) : Effect s (.ldVxK x) s.idle
  | goto {i w} (noFlag : writesFlag i = false)
      (target : w = s.pc + 2 ∨ w = s.pc + 4 ∨ w.toNat ≤ 0x10FE) : Effect s i (s.setPc w)
  | call {nnn} (free : s.sp.val < spMax) :
      Effect s (.call nnn) ((s.push (s.pc + 2) free).setPc (addrOf nnn))
  | ret (live : s.sp.val ≠ 0) : Effect s .ret (s.pop.setPc s.top)
  | reg {i x b} (dest : destination x i = true) (noFlag : writesFlag i = false) :
      Effect s i (s.setReg x b).advance
  | rnd {x kk b} : Effect s (.rnd x kk) (s.setReg x b).rndDrawn.advance
  | flagReg {i x f b} (dest : destination x i = true) (flag : writesFlag i = true)
      (bit : f.toNat ≤ 1) : Effect s i (s.setFlagThenReg f x b).advance
  | ldI {nnn} : Effect s (.ldI nnn) (s.setI (addrOf nnn)).advance
  | ldF {x w} : Effect s (.ldF x) (s.setI w).advance
  | addI {x w f} (bit : f.toNat ≤ 1) : Effect s (.addI x) ((s.setI w).setReg vf f).advance
  | cls : Effect s .cls (s.setFb blankFramebuffer).setDrawPending.advance
  | drw {x y n fb f} (bit : f.toNat ≤ 1) :
      Effect s (.drw x y n) ((s.setFb fb).setReg vf f).setDrawPending.advance
  | ldB {x} (range : s.i.toNat ≤ 0xFFD) :
      Effect s (.ldB x) (s.store (s.ea 0) (bcdDigits (s.reg x))).advance
  | stRegs {x} (range : s.i.toNat + x.val ≤ 0xFFF) :
      Effect s (.stRegs x) (s.store (s.ea 0) (s.regsUpTo x)).advance
  | ldRegs {x} : Effect s (.ldRegs x) (s.loadRegsUpTo x).advance
  | ldDtVx {x b} : Effect s (.ldDtVx x) (s.setDt b).advance
  | ldStVx {x b} : Effect s (.ldStVx x) (s.setSt b).advance

/-! ### The facts the cases keep -/

theorem flagByte_le_one (b : Bool) : (flagByte b).toNat ≤ 1 := by cases b <;> decide

theorem shrFlag_le_one (a : Byte) : (shrFlag a).toNat ≤ 1 := by
  rw [shrFlag_toNat]
  omega

theorem shlFlag_le_one (a : Byte) : (shlFlag a).toNat ≤ 1 := by
  have := a.isLt
  rw [shlFlag_toNat]
  omega

theorem addrOf_le (nnn : BitVec 12) : (addrOf nnn).toNat ≤ 0xFFF := by
  have := nnn.isLt
  rw [addrOf_toNat]
  omega

/-- "`JP V0` reaches at most 0x10FE" (R14). -/
theorem indexedTarget_le (nnn : BitVec 12) (b : Byte) : (indexedTarget nnn b).toNat ≤ 0x10FE := by
  have := nnn.isLt
  have := b.isLt
  rw [indexedTarget_toNat]
  omega

theorem Effect.jump {s : State} {i : Instr} {w : Word} (noFlag : writesFlag i = false)
    (target : w.toNat ≤ 0x10FE) : Effect s i (s.setPc w) := .goto noFlag (.inr (.inr target))

theorem Effect.skip {s : State} {i : Instr} (noFlag : writesFlag i = false) (c : Bool) :
    Effect s i (s.skipIf c) := by
  refine .goto noFlag ?_
  cases c
  · exact .inl rfl
  · exact .inr (.inl rfl)

/-! ### Every instruction has one of the effects -/

/-- The next state that `exec` answers, instruction by instruction. -/
theorem exists_effect (s : State) (i : Instr) : ∃ u, exec i s = .next u ∧ Effect s i u :=
  match i with
  | .cls => ⟨_, rfl, .cls⟩
  | .ret =>
    if h : s.sp.val = 0 then ⟨_, exec_ret_empty h, .fault (if_pos (Fin.ext h))⟩
    else ⟨_, exec_ret_live h, .ret h⟩
  | .jp nnn => ⟨_, rfl, .jump rfl (Nat.le_trans (addrOf_le nnn) (by decide))⟩
  | .call nnn =>
    if h : s.sp = 16 then
      ⟨_, exec_call_full nnn (mt (sp_lt_spMax_iff s).mp (not_not.mpr h)), .fault (if_pos h)⟩
    else ⟨_, exec_call_free nnn ((sp_lt_spMax_iff s).mpr h), .call _⟩
  | .seKk _ _ => ⟨_, rfl, .skip rfl _⟩
  | .sneKk _ _ => ⟨_, rfl, .skip rfl _⟩
  | .seVy _ _ => ⟨_, rfl, .skip rfl _⟩
  | .ldKk x _ => ⟨_, rfl, .reg (beq_self_eq_true x) rfl⟩
  | .addKk x _ => ⟨_, rfl, .reg (beq_self_eq_true x) rfl⟩
  | .ldVy x _ => ⟨_, rfl, .reg (beq_self_eq_true x) rfl⟩
  | .orVy x _ => ⟨_, rfl, .reg (beq_self_eq_true x) rfl⟩
  | .andVy x _ => ⟨_, rfl, .reg (beq_self_eq_true x) rfl⟩
  | .xorVy x _ => ⟨_, rfl, .reg (beq_self_eq_true x) rfl⟩
  | .addVy x _ => ⟨_, rfl, .flagReg (beq_self_eq_true x) rfl (flagByte_le_one _)⟩
  | .subVy x _ => ⟨_, rfl, .flagReg (beq_self_eq_true x) rfl (flagByte_le_one _)⟩
  | .shr x _ => ⟨_, rfl, .flagReg (beq_self_eq_true x) rfl (shrFlag_le_one _)⟩
  | .subn x _ => ⟨_, rfl, .flagReg (beq_self_eq_true x) rfl (flagByte_le_one _)⟩
  | .shl x _ => ⟨_, rfl, .flagReg (beq_self_eq_true x) rfl (shlFlag_le_one _)⟩
  | .sneVy _ _ => ⟨_, rfl, .skip rfl _⟩
  | .ldI _ => ⟨_, rfl, .ldI⟩
  | .jpV0 nnn => ⟨_, rfl, .jump rfl (indexedTarget_le nnn _)⟩
  | .rnd _ _ => ⟨_, rfl, .rnd⟩
  | .drw x y n =>
    if h : n = 0 ∨ s.i.toNat + (n.toNat - 1) ≤ 0xFFF then
      ⟨_, exec_drw_ok x y h, .drw (flagByte_le_one _)⟩
    else
      have ⟨h0, h1⟩ := not_or.mp h
      ⟨_, exec_drw_fault x y h0 (Nat.lt_of_not_le h1),
        .fault ((if_neg h0).trans (if_pos (Nat.lt_of_not_le h1)))⟩
  | .skp _ => ⟨_, rfl, .skip rfl _⟩
  | .sknp _ => ⟨_, rfl, .skip rfl _⟩
  | .ldVxDt x => ⟨_, rfl, .reg (beq_self_eq_true x) rfl⟩
  | .ldVxK x =>
    match h : s.lowestKey with
    | none => ⟨_, exec_ldVxK_wait x h, .wait h⟩
    | some _ => ⟨_, exec_ldVxK_key x h, .reg (beq_self_eq_true x) rfl⟩
  | .ldDtVx _ => ⟨_, rfl, .ldDtVx⟩
  | .ldStVx _ => ⟨_, rfl, .ldStVx⟩
  | .addI _ => ⟨_, rfl, .addI (flagByte_le_one _)⟩
  | .ldF _ => ⟨_, rfl, .ldF⟩
  | .ldB x =>
    if h : s.i.toNat ≤ 0xFFD then ⟨_, exec_ldB_ok x h, .ldB h⟩
    else ⟨_, exec_ldB_fault x (Nat.lt_of_not_le h), .fault (if_pos (by omega))⟩
  | .stRegs x =>
    if h : s.i.toNat + x.val ≤ 0xFFF then ⟨_, exec_stRegs_ok x h, .stRegs h⟩
    else ⟨_, exec_stRegs_fault x (Nat.lt_of_not_le h), .fault (if_pos (Nat.lt_of_not_le h))⟩
  | .ldRegs x =>
    if h : s.i.toNat + x.val ≤ 0xFFF then ⟨_, exec_ldRegs_ok x h, .ldRegs⟩
    else ⟨_, exec_ldRegs_fault x (Nat.lt_of_not_le h), .fault (if_pos (Nat.lt_of_not_le h))⟩
  | .unassigned _ => ⟨_, rfl, .goto rfl (.inl rfl)⟩

/-- What `exec` answers is an effect of its instruction. -/
theorem exec_effect {i : Instr} {s u : State} (h : exec i s = .next u) : Effect s i u := by
  obtain ⟨v, hv, e⟩ := exists_effect s i
  rw [h] at hv
  cases hv
  exact e

end Sys2Proof.Machine
end

section
/-!
Who may change what (spec/10_state.md): the frames of the effects, and from them those of a cycle.
-/

namespace Sys2Proof.Machine

open Sys2Proof.Safety

/-! ### What the effects leave unchanged, field by field -/

section Frame

variable {s u : State} {i : Instr}

theorem Effect.mem_eq (e : Effect s i u) (hB : ∀ x, i ≠ .ldB x) (hS : ∀ x, i ≠ .stRegs x) :
    u.mem = s.mem := by
  cases e with
  | ldB => exact absurd rfl (hB _)
  | stRegs => exact absurd rfl (hS _)
  | _ => rfl

theorem Effect.display_eq (e : Effect s i u) (hC : i ≠ .cls) (hD : ∀ x y n, i ≠ .drw x y n) :
    u.fb = s.fb ∧ u.dp = s.dp := by
  cases e with
  | cls => exact absurd rfl hC
  | drw => exact absurd rfl (hD _ _ _)
  | _ => exact ⟨rfl, rfl⟩

theorem Effect.dp_kept (e : Effect s i u) (h : s.dp = true) : u.dp = true := by
  cases e with
  | cls => rfl
  | drw => rfl
  | _ => exact h

theorem Effect.i_eq (e : Effect s i u) (hL : ∀ a, i ≠ .ldI a) (hA : ∀ x, i ≠ .addI x)
    (hF : ∀ x, i ≠ .ldF x) : u.i = s.i := by
  cases e with
  | ldI => exact absurd rfl (hL _)
  | addI => exact absurd rfl (hA _)
  | ldF => exact absurd rfl (hF _)
  | _ => rfl

theorem Effect.stack_eq (e : Effect s i u) (hC : ∀ a, i ≠ .call a) : u.stack = s.stack := by
  cases e with
  | call => exact absurd rfl (hC _)
  | _ => rfl

theorem Effect.sp_eq (e : Effect s i u) (hC : ∀ a, i ≠ .call a) (hR : i ≠ .ret) : u.sp = s.sp := by
  cases e with
  | call => exact absurd rfl (hC _)
  | ret => exact absurd rfl hR
  | _ => rfl

theorem Effect.keys_eq (e : Effect s i u) : u.keys = s.keys := by
  cases e <;> rfl

/-- A register that is no destination is none of the registers an instruction names as one. -/
theorem ne_of_destination {i : Instr} {r x : RegIdx} (hr : destination r i = false)
    (hx : destination x i = true) : r ≠ x := by
  rintro rfl
  rw [hr] at hx
  cases hx

theorem Effect.reg_eq (e : Effect s i u) {r : RegIdx} (hr : destination r i = false)
    (hf : r = vf → writesFlag i = false) : u.reg r = s.reg r := by
  have not_vf (flag : writesFlag i = true) : r ≠ vf := fun h => by
    rw [hf h] at flag
    cases flag
  cases e with
  | reg dest => exact reg_setReg_ne s _ (ne_of_destination hr dest)
  | rnd => exact reg_setReg_ne s _ (ne_of_destination hr (beq_self_eq_true _))
  | flagReg dest flag =>
    exact (reg_setReg_ne _ _ (ne_of_destination hr dest)).trans (reg_setReg_ne s _ (not_vf flag))
  | addI => exact reg_setReg_ne _ _ (not_vf rfl)
  | drw => exact reg_setReg_ne _ _ (not_vf rfl)
  | ldRegs => exact (loadRegsUpTo_reg s _ r).trans (if_neg (of_decide_eq_false hr))
  | _ => rfl

/-- A flag-writing instruction that does not fault leaves a bit in `VF`, unless it names `VF`. -/
theorem Effect.flag_le_one (e : Effect s i u) (ok : faultOf i s = none)
    (flag : writesFlag i = true) (hv : destination vf i = false) : (u.reg vf).toNat ≤ 1 := by
  cases e with
  | fault cause => rw [ok] at cause; cases cause
  | goto noFlag => rw [flag] at noFlag; cases noFlag
  | reg _ noFlag => rw [flag] at noFlag; cases noFlag
  | flagReg dest _ bit =>
    rw [advance_eq, reg_setPc, setFlagThenReg_eq, reg_setReg_ne _ _ (ne_of_destination hv dest),
      reg_setReg_same]
    exact bit
  | addI bit => simpa only [advance_eq, reg_setPc, reg_setReg_same] using bit
  | drw bit => simpa only [advance_eq, reg_setPc, reg_setDrawPending, reg_setReg_same] using bit
  | _ => cases flag

end Frame

/-! ### From the effects to the cycle -/

/-- A field that idling, raising and ticking keep changes in a cycle only by the effect. -/
theorem step_field_eq {α : Type} (field : State → α) {s t : State} (h : step s = .next t)
    (effect : ∀ u, Effect s s.fetchInstr u → field u = field s)
    (idle : ∀ s, field s.idle = field s := by intros; rfl)
    (raise : ∀ s c a, field (s.raise c a) = field s := by intros; rfl)
    (tick : ∀ s, field s.tick = field s := by intros; rfl) : field t = field s :=
  step_keeps (P := fun s t => field t = field s) idle raise (fun _ u hu => (tick u).trans hu) h
    fun u hu => effect u (exec_effect hu)

/-- Settles O37: the two stores are the only effects that write memory (R10, R30). -/
theorem onlyTwoInstructionsStore : Obligations.OnlyTwoInstructionsStore := by
  intro s t h hB hS a
  have hm : t.mem = s.mem := step_field_eq State.mem h fun _ e => e.mem_eq hB hS
  rw [hm]

/-- Settles O38: only the effects of `CLS` and `DRW` write `FB` and `DP`, and they set `DP`
(R20, R21). -/
theorem onlyClsAndDrwTouchTheDisplay : Obligations.OnlyClsAndDrwTouchTheDisplay := by
  intro s t h
  constructor
  · intro hC hD
    exact ⟨step_field_eq State.fb h fun _ e => (e.display_eq hC hD).1,
      step_field_eq State.dp h fun _ e => (e.display_eq hC hD).2⟩
  · exact step_keeps (P := fun s t => s.dp = true → t.dp = true) (fun _ => id) (fun _ _ _ => id)
      (fun _ _ => id) h fun _ hu => (exec_effect hu).dp_kept

/-- Settles O39, field by field from the effects (R13, R15, R16, R17). -/
theorem onlyTheirInstructionsWriteIndexStackAndKeys :
    Obligations.OnlyTheirInstructionsWriteIndexStackAndKeys := fun _ _ h =>
  ⟨fun hL hA hF => step_field_eq State.i h fun _ e => e.i_eq hL hA hF,
    fun hC => step_field_eq State.stack h fun _ e => e.stack_eq hC,
    fun hC hR => step_field_eq State.sp h fun _ e => e.sp_eq hC hR,
    step_field_eq State.keys h fun _ e => e.keys_eq⟩

/-- The guards of a completed cycle, in the order of test of R167. -/
theorem cycleEnd_completed {s : State} (h : cycleEnd s = .completed) :
    Running s ∧ s.pc.toNat ≤ 0xFFE ∧ faultOf s.fetchInstr s = none ∧
      waits s.fetchInstr s = false := by
  unfold cycleEnd at h
  split_ifs at h with hr hp hf hw
  exact ⟨not_not.mp hr, Nat.le_of_not_lt hp, Option.not_isSome_iff_eq_none.mp hf, by simpa using hw⟩

theorem reg_finishCycle (i : Instr) (s u : State) (r : RegIdx) :
    (finishCycle i s u).reg r = u.reg r := by
  rcases finishCycle_cases i s u with ⟨_, h⟩ | ⟨_, _, h⟩ <;> rw [h]
  exact reg_tick u r

theorem eq_zero_or_one {b : Byte} (h : b.toNat ≤ 1) : b = 0 ∨ b = 1 := by
  rw [← BitVec.toNat_inj, ← BitVec.toNat_inj]
  exact Nat.le_one_iff_eq_zero_or_eq_one.mp h

/-- Settles O40: the frame of a register holds of every cycle, and a completed one is the effect of
its instruction up to the tick (R11, R12). -/
theorem onlyNamedRegistersAndTheFlagChange : Obligations.OnlyNamedRegistersAndTheFlagChange := by
  intro s t h
  refine ⟨fun r hr hf => step_field_eq (State.reg · r) h fun _ e => e.reg_eq hr hf,
    fun hc flag hv => ?_⟩
  obtain ⟨hrun, hpc, hok, _⟩ := cycleEnd_completed hc
  rcases step_cases h with ⟨halted, _⟩ | ⟨_, hp, _⟩ | ⟨_, _, u, hu, rfl⟩
  · exact absurd hrun halted
  · omega
  · rw [reg_finishCycle]
    exact eq_zero_or_one ((exec_effect hu).flag_le_one hok flag hv)

end Sys2Proof.Machine
end

section
/-!
The invariant: every effect keeps the bounds of R14 and the canonical form of memory, and every
fault is recorded truthfully.
-/

namespace Sys2Proof.Machine

open Sys2Proof.Safety

/-! ### The bounds of R14 and the canonical form of memory -/

section Bounds

variable {s u : State} {i : Instr}

/-- An instruction faults as table X1 says, or it leaves the latch alone. -/
theorem Effect.raises_or_fault_eq (e : Effect s i u) :
    (∃ c a, faultOf i s = some (c, a) ∧ u = s.raise c a) ∨ u.fault = s.fault := by
  cases e with
  | fault cause => exact .inl ⟨_, _, cause, rfl⟩
  | _ => exact .inr rfl

theorem memSize_eq : memSize = 4096 := rfl

theorem Effect.mem_wf (e : Effect s i u) (h : s.mem.wf) : u.mem.wf := by
  cases e with
  | ldB range => exact
    Memory.writeBytes_wf h (by rw [ea_eq, bcdDigits_length, memSize_eq]; omega)
  | stRegs range => exact
    Memory.writeBytes_wf h (by rw [ea_eq, regsUpTo_length, memSize_eq]; omega)
  | _ => exact h

theorem pc_add_toNat {pc : Word} (h : pc.toNat ≤ 0xFFE) {k : Nat} (hk : k ≤ 4) :
    (pc + BitVec.ofNat 16 k).toNat = pc.toNat + k := by
  rw [BitVec.toNat_add, BitVec.toNat_ofNat]
  omega

theorem Effect.pc_le (e : Effect s i u) (hp : s.pc.toNat ≤ 0xFFE)
    (hs : ∀ k : Fin 16, s.stack[k].toNat ≤ 0x1000) : u.pc.toNat ≤ 0x10FE := by
  have add_le {k : Nat} (hk : k ≤ 4) : (s.pc + BitVec.ofNat 16 k).toNat ≤ 0x10FE := by
    rw [pc_add_toNat hp hk]
    omega
  cases e with
  | fault | wait => exact Nat.le_trans hp (by decide)
  | goto _ target =>
    rcases target with rfl | rfl | target
    · exact add_le (k := 2) (by decide)
    · exact add_le (k := 4) (by decide)
    · exact target
  | call => exact Nat.le_trans (addrOf_le _) (by decide)
  | ret live =>
    have := sp_le s
    exact Nat.le_trans (hs ⟨s.sp.val - 1, by omega⟩) (by decide)
  | _ => exact add_le (k := 2) (by decide)

/-- "a stack entry holds at most 0xFFE + 2 = 0x1000" (R14). -/
theorem Effect.stack_le (e : Effect s i u) (hp : s.pc.toNat ≤ 0xFFE)
    (hs : ∀ k : Fin 16, s.stack[k].toNat ≤ 0x1000) : ∀ k : Fin 16, u.stack[k].toNat ≤ 0x1000 := by
  cases e with
  | call free =>
    intro k
    have free' : s.sp.val < 16 := free
    show ((s.stack.set s.sp.val (s.pc + 2) free')[k.val]).toNat ≤ 0x1000
    rw [Vector.getElem_set]
    split
    · have := pc_add_toNat hp (k := 2) (by decide)
      exact this.trans_le (by omega)
    · exact hs k
  | _ => exact hs

end Bounds

end Sys2Proof.Machine

namespace Sys2Proof.Safety

open Sys2Proof.Machine

/-! ### The invariant -/

/-- What a recorded cause and address tell truly of the state the fault was raised in (table X1). -/
def Truthful (s : State) (a : Nat) : FaultCause → Prop
  | .none => False
  | .stackOverflow => s.sp = 16 ∧ a = 0
  | .stackUnderflow => s.sp = 0 ∧ a = 0
  | .memFetch => s.pc.toNat > 0xFFE ∧ a = max s.pc.toNat 0x1000
  | .memData => s.i.toNat + 15 > 0xFFF ∧ a = max s.i.toNat 0x1000

/-- A data fault is truthful, whatever the last offset up to 15 (R164). -/
theorem truthful_of_data {s : State} {last : Nat} {c : FaultCause} {a : Nat} (hl : last ≤ 15)
    (h : (if s.i.toNat + last > 0xFFF then some (FaultCause.memData, max s.i.toNat 0x1000)
      else none) = some (c, a)) : Truthful s a c := by
  obtain ⟨hr, hca⟩ := Option.ite_none_right_eq_some.mp h
  cases hca
  exact ⟨by omega, rfl⟩

/-- The faults of table X1 are truthful. -/
theorem truthful_of_faultOf {i : Instr} {s : State} {c : FaultCause} {a : Nat}
    (h : faultOf i s = some (c, a)) : Truthful s a c := by
  cases i with
  | call | ret =>
    obtain ⟨hsp, hca⟩ := Option.ite_none_right_eq_some.mp h
    cases hca
    exact ⟨hsp, rfl⟩
  | drw _ _ n =>
    have := n.isLt
    exact truthful_of_data (last := n.toNat - 1) (by omega) (Option.ite_none_left_eq_some.mp h).2
  | ldB => exact truthful_of_data (last := 2) (by decide) h
  | stRegs x => exact truthful_of_data (Nat.le_of_lt_succ x.isLt) h
  | ldRegs x => exact truthful_of_data (Nat.le_of_lt_succ x.isLt) h
  | _ => cases h

/-- The invariant speaks of memory, `PC`, `I`, the stack, `SP` and the latch only. -/
theorem Inv.congr {s t : State} (hs : Inv s) (mem : t.mem = s.mem := by rfl)
    (pc : t.pc = s.pc := by rfl) (i : t.i = s.i := by rfl) (stack : t.stack = s.stack := by rfl)
    (sp : t.sp = s.sp := by rfl) (fault : t.fault = s.fault := by rfl) : Inv t := by
  obtain ⟨h1, h2, h3, h4, h5, h6, h7, h8, h9⟩ := hs
  constructor <;> simpa only [mem, pc, i, stack, sp, fault, Running]

/-- Taking a truthful fault keeps the invariant (R168). -/
theorem Inv.raise {s : State} (hs : Inv s) {c : FaultCause} {a : Nat} (h : Truthful s a c) :
    Inv (s.raise c a) where
  mem_wf := hs.mem_wf
  pc_le := hs.pc_le
  stack_le := hs.stack_le
  latch_clear hc := by
    cases (show c = .none from hc)
    exact h.elim
  latch_pc _ := rfl
  latch_overflow hc := by
    cases (show c = .stackOverflow from hc)
    exact ⟨h.1, congrArg (BitVec.ofNat 17) h.2⟩
  latch_underflow hc := by
    cases (show c = .stackUnderflow from hc)
    exact ⟨h.1, congrArg (BitVec.ofNat 17) h.2⟩
  latch_fetch hc := by
    cases (show c = .memFetch from hc)
    exact ⟨h.1, (raise_addr_toNat s _ (h.2.trans_lt (faultAddr_lt _))).trans h.2⟩
  latch_data hc := by
    cases (show c = .memData from hc)
    exact ⟨h.1, (raise_addr_toNat s _ (h.2.trans_lt (faultAddr_lt _))).trans h.2⟩

/-- While the core runs, the invariant is its bounds: the latch is clear. -/
theorem Inv.of_running {s t : State} (hs : Inv s) (hr : Running s) (fault : t.fault = s.fault)
    (mem : t.mem.wf) (pc : t.pc.toNat ≤ 0x10FE) (stack : ∀ k : Fin 16, t.stack[k].toNat ≤ 0x1000) :
    Inv t := by
  have clear : t.fault = FaultLatch.clear := fault.trans (hs.latch_clear hr)
  have cause : t.fault.cause = .none := congrArg FaultLatch.cause clear
  refine ⟨mem, pc, stack, fun _ => clear, absurd cause, ?_, ?_, ?_, ?_⟩ <;>
    exact fun h => nomatch cause.symm.trans h

/-- An instruction that a running core has fetched keeps the invariant. -/
theorem Inv.effect {s u : State} {i : Instr} (hs : Inv s) (hr : Running s)
    (hp : s.pc.toNat ≤ 0xFFE) (e : Effect s i u) : Inv u := by
  rcases e.raises_or_fault_eq with ⟨c, a, hf, rfl⟩ | hf
  · exact hs.raise (truthful_of_faultOf hf)
  · exact hs.of_running hr hf (e.mem_wf hs.mem_wf) (e.pc_le hp hs.stack_le)
      (e.stack_le hp hs.stack_le)

/-- Settles O51: a halted cycle idles, a failed fetch is recorded truthfully, and an executed
instruction keeps the invariant, with or without the tick (R14, R22, R168). -/
theorem cycleKeepsInvariant : Obligations.CycleKeepsInvariant := by
  intro s t hs h
  rcases step_cases h with ⟨_, rfl⟩ | ⟨_, hp, rfl⟩ | ⟨hr, hp, u, hu, rfl⟩
  · exact hs.congr
  · exact hs.raise (c := .memFetch) ⟨hp, rfl⟩
  · have hi := hs.effect hr hp (exec_effect hu)
    rcases finishCycle_cases s.fetchInstr s u with ⟨_, hf⟩ | ⟨_, _, hf⟩ <;> rw [hf]
    · exact hi
    · exact hi.congr

/-- Settles O50 (R26, R14, R22). -/
theorem resetSatisfiesInvariant : Obligations.ResetSatisfiesInvariant where
  mem_wf := by decide
  pc_le := by decide
  stack_le := by decide
  latch_clear _ := rfl
  latch_pc h := absurd rfl h
  latch_overflow h := nomatch h
  latch_underflow h := nomatch h
  latch_fetch h := nomatch h
  latch_data h := nomatch h

/-- Settles O53: nothing is listed, so memory reads as the font and, above it, as zero (R26, R180). -/
theorem resetValues : Obligations.ResetValues := by
  refine ⟨fun a _ => ?_, by decide, by decide, by decide, fun px py _ _ => pixel_blank px py, rfl,
    rfl, rfl, rfl, rfl, rfl, rfl⟩
  split
  · rfl
  · next h => exact Memory.unlisted_above_font (Nat.le_of_not_lt h)

end Sys2Proof.Safety
end

section
/-!
No instruction reads `DP`, `ST` or the beep (spec/10_state.md R19, R21).
-/

namespace Sys2Proof.Machine

open Sys2Proof.Safety

/-! ### `DP`, `ST` and the beep are not read -/

/-- `s` with other values of `DP` and of `ST` and the beep. -/
def State.withOutputs (s : State) (d : Bool) (o : Byte × Bool) : State :=
  { s with dp := d, st := o.1, beep := o.2 }

/-- `act` leads `s` to `t`, and the rest of `t` comes from the rest of `s` alone: the new `DP` is a
function of the old one, the new `ST` and beep are one of the old `ST` and beep. -/
def Unread (act : State → Result) (s t : State) : Prop :=
  ∃ (f : Bool → Bool) (g : Byte × Bool → Byte × Bool),
    ∀ d o, act (s.withOutputs d o) = .next (t.withOutputs (f d) (g o))

section Unread

variable {act : State → Result} {s t : State}

/-- An instruction that touches none of the three. -/
theorem Unread.keep (h : ∀ d o, act (s.withOutputs d o) = .next (t.withOutputs d o)) :
    Unread act s t := ⟨id, id, h⟩

/-- Idling and faults end the cycle's beep (R67, R168). -/
theorem Unread.silent (h : ∀ d o, act (s.withOutputs d o) = .next (t.withOutputs d (o.1, false))) :
    Unread act s t := ⟨id, fun o => (o.1, false), h⟩

/-- `CLS` and `DRW` set `DP` (R120, R121). -/
theorem Unread.draw (h : ∀ d o, act (s.withOutputs d o) = .next (t.withOutputs true o)) :
    Unread act s t := ⟨fun _ => true, id, h⟩

/-- The range check reads `I` alone (R34). -/
theorem Unread.withRange (len : Nat) {f : State → State}
    (effect : Unread (fun s => .next (f s)) s (f s)) :
    Unread (fun s => .next (s.withRange len f)) s (s.withRange len f) := by
  by_cases hr : s.inRange len = true
  · obtain ⟨g, k, hf⟩ := effect
    rw [show s.withRange len f = f s from if_pos hr]
    exact ⟨g, k, fun d o => (congrArg Host.Outcome.next (if_pos hr)).trans (hf d o)⟩
  · rw [show s.withRange len f = s.raise .memData _ from if_neg hr]
    exact .silent fun _ _ => congrArg Host.Outcome.next (if_neg hr)

/-- No instruction reads `DP`, `ST` or the beep (R19, R21). -/
theorem exec_unread {i : Instr} (h : exec i s = .next t) : Unread (exec i) s t := by
  cases i
  case ret =>
    by_cases h0 : s.sp.val = 0
    · cases h.symm.trans (exec_ret_empty h0)
      exact .silent fun _ _ => exec_ret_empty h0
    · cases h.symm.trans (exec_ret_live h0)
      exact .keep fun _ _ => exec_ret_live h0
  case call nnn =>
    by_cases h0 : s.sp.val < spMax
    · cases h.symm.trans (exec_call_free nnn h0)
      exact .keep fun _ _ => exec_call_free (s := s.withOutputs _ _) nnn h0
    · cases h.symm.trans (exec_call_full nnn h0)
      exact .silent fun _ _ => exec_call_full nnn h0
  case ldVxK x =>
    cases h0 : s.lowestKey
    · cases h.symm.trans (exec_ldVxK_wait x h0)
      exact .silent fun _ _ => exec_ldVxK_wait x h0
    · cases h.symm.trans (exec_ldVxK_key x h0)
      exact .keep fun _ _ => exec_ldVxK_key x h0
  case ldStVx x =>
    cases h
    exact ⟨id, fun o => (s.reg x, o.2), fun _ _ => rfl⟩
  case cls => cases h; exact .draw fun _ _ => rfl
  case drw => cases h; exact .withRange _ (.draw fun _ _ => rfl)
  case ldB | stRegs | ldRegs => cases h; exact .withRange _ (.keep fun _ _ => rfl)
  all_goals cases h; exact .keep fun _ _ => rfl

/-- No cycle reads `DP`, `ST` or the beep. -/
theorem step_unread (h : step s = .next t) : Unread step s t := by
  rcases step_cases h with ⟨halted, rfl⟩ | ⟨hr, hp, rfl⟩ | ⟨hr, hp, u, hu, rfl⟩
  · exact .silent fun _ _ => step_halted halted
  · exact .silent fun _ _ => step_fetchFault hr hp
  · obtain ⟨f, g, hfg⟩ := exec_unread hu
    have hstep (d o) : step (s.withOutputs d o) =
        .next (finishCycle s.fetchInstr (s.withOutputs d o) (u.withOutputs (f d) (g o))) :=
      step_exec hr hp (hfg d o)
    by_cases hend : (u.halted || waits s.fetchInstr s) = true
    · rw [show finishCycle s.fetchInstr s u = u from if_pos hend]
      exact ⟨f, g, fun d o => (hstep d o).trans (congrArg Host.Outcome.next (if_pos hend))⟩
    · rw [show finishCycle s.fetchInstr s u = u.tick from if_neg hend]
      exact ⟨f, fun o => (countDown (g o).1, (g o).1 != 0 && countDown (g o).1 == 1),
        fun d o => (hstep d o).trans (congrArg Host.Outcome.next (if_neg hend))⟩

/-- What a cycle makes of other values of the three, from what it makes of the state itself. -/
theorem Unread.outputs_eq {f : Bool → Bool} {g : Byte × Bool → Byte × Bool}
    (h : act s = .next t) (hfg : ∀ d o, act (s.withOutputs d o) = .next (t.withOutputs (f d) (g o))) :
    f s.dp = t.dp ∧ g (s.st, s.beep) = (t.st, t.beep) := by
  have e : t = t.withOutputs (f s.dp) (g (s.st, s.beep)) :=
    Host.Outcome.next.inj (h.symm.trans (hfg s.dp (s.st, s.beep)))
  exact ⟨(congrArg State.dp e).symm,
    Prod.ext (congrArg State.st e).symm (congrArg State.beep e).symm⟩

end Unread

/-- Settles O41: `ST` and the beep start equal, so they end equal (R21). -/
theorem drawPendingIsNotRead : Obligations.DrawPendingIsNotRead := by
  intro s t b h
  obtain ⟨f, g, hfg⟩ := step_unread h
  obtain ⟨_, hg⟩ := Unread.outputs_eq h hfg
  refine ⟨t.withOutputs (f b) (t.st, t.beep), ?_, rfl⟩
  rw [← hg]
  exact hfg b (s.st, s.beep)

/-- Settles O42: `DP` starts equal, so it ends equal (R19). -/
theorem soundTimerIsNotRead : Obligations.SoundTimerIsNotRead := by
  intro s t b h
  obtain ⟨f, g, hfg⟩ := step_unread h
  obtain ⟨hf, _⟩ := Unread.outputs_eq h hfg
  refine ⟨t.withOutputs t.dp (g (b, s.beep)), ?_, rfl⟩
  rw [← hf]
  exact hfg s.dp (b, s.beep)

end Sys2Proof.Machine
end

section
/-!
Decoding the word of a well-formed instruction gives the instruction back (R47, R49, R51).
-/

namespace Sys2Proof

/-- A word that R51 lists as unassigned selects no instruction of its group. -/
theorem decode_of_unassignedWord {op : Word} (h : unassignedWord op = true) :
    decode op = .unassigned op := by
  simp only [unassignedWord, Bool.or_eq_true, Bool.and_eq_true, beq_iff_eq, bne_iff_ne, ← opG_toNat,
    ← opN_toNat, ← opKk_toNat] at h
  rcases h with ((((⟨⟨g, noCls⟩, noRet⟩ | ⟨g, n⟩) | ⟨g, n⟩) | ⟨g, n⟩) | ⟨⟨g, noSkp⟩, noSknp⟩) |
      ⟨g, kk⟩ <;> unfold decode <;> rw [g]
  · simp [decodeGroup0, ← BitVec.toNat_inj, noCls, noRet]
  · simp [← BitVec.toNat_inj, n]
  · simp only [List.contains_eq_mem, List.mem_cons, List.not_mem_nil, or_false,
      decide_eq_true_eq] at n
    rcases n with n | n | n | n | n | n | n <;> simp [decodeGroup8, n]
  · simp [← BitVec.toNat_inj, n]
  · simp [decodeGroupE, ← BitVec.toNat_inj, noSkp, noSknp]
  · simp only [List.contains_eq_mem, List.mem_cons, List.not_mem_nil, or_false, Bool.not_eq_true',
      decide_eq_false_iff_not, not_or] at kk
    simp [decodeGroupF, ← BitVec.toNat_inj, kk]

/-- The fields of each format are those it was built from, and its literal digits select its row of
table E3 (R50). -/
theorem decode_encode {i : Instr} (h : i.wellFormed = true) : decode (encode i) = i := by
  cases i with
  | cls | ret => rfl
  | jp | call | ldI | jpV0 | seKk | sneKk | ldKk | addKk | rnd | seVy | sneVy =>
    simp [encode, decode]
  | drw => simp [encode, decode, formatD_eq]
  | ldVy | orVy | andVy | xorVy | addVy | subVy | shr | subn | shl =>
    simp [encode, decode, decodeGroup8]
  | skp | sknp => simp [encode, decode, decodeGroupE, formatX_eq]
  | ldVxDt | ldVxK | ldDtVx | ldStVx | addI | ldF | ldB | stRegs | ldRegs =>
    simp [encode, decode, decodeGroupF, formatX_eq]
  | unassigned op => exact decode_of_unassignedWord h

end Sys2Proof
end

section
/-!
The fetch of stored bytes: a store to the bytes at `PC` is what the next cycle fetches
(spec/20_memory.md R32, R39).
-/

namespace Sys2Proof.Machine

open Sys2Proof.Safety

/-- Bytes stored from `PC` up are the word that is fetched, the first one high (R32, R62). -/
theorem fetchWord_of_stored {s : State} {m : Memory} {bs : List Byte} (hm : m.wf)
    (stored : s.mem = m.writeBytes s.pc.toNat bs) (two : 2 ≤ bs.length)
    (fits : s.pc.toNat + bs.length ≤ memSize) : s.fetchWord = wordOfBytes bs[0] bs[1] := by
  have first := Memory.read_writeBytes_inside (k := 0) hm fits (by omega)
  have second := Memory.read_writeBytes_inside (k := 1) hm fits (by omega)
  unfold State.fetchWord
  rw [stored, second]
  exact congrArg (wordOfBytes · bs[1]) first

/-- The end of a cycle moves neither `PC` nor memory, so not the next fetch. -/
theorem fetchWord_finishCycle (i : Instr) (s u : State) :
    (finishCycle i s u).fetchWord = u.fetchWord := by
  rcases finishCycle_cases i s u with ⟨_, h⟩ | ⟨_, _, h⟩ <;> rw [h]
  rfl

/-- Settles O30: the cycle leaves `PC` at the first stored byte, and the block holds `V[0]` and
`V[1]` first (R39, R37). -/
theorem storesAreSeenByTheNextFetch : Obligations.StoresAreSeenByTheNextFetch := by
  intro s t x hm hr hp fetched hx hI range h
  have stores := exec_stRegs_ok x range
  rw [← fetched] at stores
  cases h.symm.trans (step_exec hr hp stores)
  rw [ea_eq] at range
  have len := regsUpTo_length s x
  have fits : (s.pc + 2).toNat + (s.regsUpTo x).length ≤ memSize := by
    rw [← hI, memSize_eq]
    omega
  have stored : s.mem.writeBytes (s.ea 0) (s.regsUpTo x) =
      s.mem.writeBytes (s.pc + 2).toNat (s.regsUpTo x) := congrArg (s.mem.writeBytes ·.toNat _) hI
  rw [fetchWord_finishCycle, fetchWord_of_stored hm stored (by omega) fits]
  exact congrArg₂ wordOfBytes (regsUpTo_getElem s x 0 _) (regsUpTo_getElem s x 1 _)

/-! ### `State.withFetchWord` (log 8) -/

theorem fetchablePc_le (s : State) : s.fetchablePc.toNat ≤ 0xFFE := by
  unfold State.fetchablePc
  split
  · decide
  · next h => exact Nat.le_of_not_lt (mt (fetchFaults_iff s).mpr h)

/-- The placed word is the one that is fetched (R32, R62). -/
theorem fetchWord_withFetchWord {s : State} (hm : s.mem.wf) (op : Word) :
    (s.withFetchWord 16 op.toNat).fetchWord = op := by
  have word : BitVec.ofNat 16 (op.toNat % 2 ^ 16) = op := by
    rw [Nat.mod_eq_of_lt op.isLt, BitVec.ofNat_toNat, BitVec.setWidth_eq]
  have fits : s.fetchablePc.toNat + 2 ≤ memSize := Nat.add_le_add_right (fetchablePc_le s) 2
  rw [fetchWord_of_stored (s := s.withFetchWord 16 op.toNat) hm rfl (Nat.le_refl 2) fits, word]
  exact wordOfBytes_bytes op

/-- Settles O48: placing a word leaves a running core that fetches it, and the word decodes to its
instruction (R32, R49, R62). -/
theorem placedInstructionIsExecuted : Obligations.PlacedInstructionIsExecuted := by
  rintro s t _ i hm hi rfl h
  have fetched : (s.withFetchWord 16 (encode i).toNat).fetchInstr = i := by
    rw [State.fetchInstr, fetchWord_withFetchWord hm, decode_encode hi]
  refine ⟨fetched, ?_⟩
  have cycle := step_exec (s := s.withFetchWord 16 (encode i).toNat) rfl (fetchablePc_le s)
    (by rwa [fetched])
  rwa [fetched] at cycle

end Sys2Proof.Machine
end

section
/-!
Every word is the word of the well-formed instruction it decodes to (R47, R49, R51, D8).
-/

namespace Sys2Proof

/-- Settles O44, format by format: `decode_encode` (R47, R50). -/
theorem decodeInvertsEncode : Obligations.DecodeInvertsEncode := fun _ h => decode_encode h

/-- `op` is the word of the instruction `i`, and `i` is one of the machine's. -/
def IsWordOf (op : Word) (i : Instr) : Prop := i.wellFormed = true ∧ encode i = op

section Fields

variable {op : Word} {g : BitVec 4}

/-- The word of format A with the group and the `nnn` of `op` is `op`; so for the other formats. -/
theorem formatA_of_opG (hg : opG op = g) : formatA g (opNnn op) = op := by
  rw [← hg, formatA_fields]

theorem formatI_of_opG (hg : opG op = g) : formatI g (opX op) (opKk op) = op := by
  rw [← hg, formatI_fields]

theorem formatX_of_opG {f : Byte} (hg : opG op = g) (hk : opKk op = f) :
    formatX g (opX op) f = op := by
  rw [formatX_eq, ← hk, formatI_of_opG hg]

theorem formatR_of_opG {f : BitVec 4} (hg : opG op = g) (hn : opN op = f) :
    formatR g (opX op) (opY op) f = op := by
  rw [← hg, ← hn, formatR_fields]

/-- The list of R51 by the fields of the word. -/
theorem unassignedWord_iff : unassignedWord op = true ↔
    (opG op = 0x0 ∧ op ≠ 0x00E0 ∧ op ≠ 0x00EE) ∨ (opG op = 0x5 ∧ opN op ≠ 0x0) ∨
    (opG op = 0x8 ∧ opN op ∈ [0x8#4, 0x9#4, 0xA#4, 0xB#4, 0xC#4, 0xD#4, 0xF#4]) ∨
    (opG op = 0x9 ∧ opN op ≠ 0x0) ∨ (opG op = 0xE ∧ opKk op ≠ 0x9E ∧ opKk op ≠ 0xA1) ∨
    (opG op = 0xF ∧ opKk op ∉ [0x07#8, 0x0A#8, 0x15#8, 0x18#8, 0x1E#8, 0x29#8, 0x33#8, 0x55#8,
      0x65#8]) := by
  simp [unassignedWord, ← BitVec.toNat_inj, ← opG_toNat, ← opN_toNat, ← opKk_toNat, or_assoc,
    and_assoc]

theorem decodeGroup0_isWordOf (hg : opG op = 0x0) : IsWordOf op (decodeGroup0 op) := by
  unfold decodeGroup0
  split
  · next h => exact ⟨rfl, h.symm⟩
  split
  · next h => exact ⟨rfl, h.symm⟩
  · next hc hr => exact ⟨unassignedWord_iff.mpr (by simp [hg, hc, hr]), rfl⟩

theorem decodeGroup8_isWordOf (hg : opG op = 0x8) : IsWordOf op (decodeGroup8 op) := by
  have word {f : BitVec 4} (hn : (opN op).toNat = f.toNat) :
      formatR 0x8 (opX op) (opY op) f = op := formatR_of_opG hg (BitVec.eq_of_toNat_eq hn)
  unfold decodeGroup8
  split
  case h_10 =>
    have digit : opN op ∈ [0x8#4, 0x9#4, 0xA#4, 0xB#4, 0xC#4, 0xD#4, 0xF#4] := by
      have := (opN op).isLt
      simp only [imp_false] at *
      simp only [List.mem_cons, List.not_mem_nil, or_false]
      bv_omega
    exact ⟨unassignedWord_iff.mpr (.inr (.inr (.inl ⟨hg, digit⟩))), rfl⟩
  all_goals next hn => exact ⟨rfl, word hn⟩

theorem decodeGroupE_isWordOf (hg : opG op = 0xE) : IsWordOf op (decodeGroupE op) := by
  unfold decodeGroupE
  split
  · next hk => exact ⟨rfl, formatX_of_opG hg hk⟩
  split
  · next hk => exact ⟨rfl, formatX_of_opG hg hk⟩
  · next hp hn => exact ⟨unassignedWord_iff.mpr (by simp [hg, hp, hn]), rfl⟩

theorem decodeGroupF_isWordOf (hg : opG op = 0xF) : IsWordOf op (decodeGroupF op) := by
  unfold decodeGroupF
  split_ifs
  case neg => exact ⟨unassignedWord_iff.mpr (by simp [*]), rfl⟩
  all_goals exact ⟨rfl, formatX_of_opG hg ‹_›⟩

/-- The decode procedure group by group (R49). -/
theorem decode_isWordOf (op : Word) : IsWordOf op (decode op) := by
  have group {g : BitVec 4} (h : (opG op).toNat = g.toNat) : opG op = g := BitVec.eq_of_toNat_eq h
  unfold decode
  split
  case h_1 h => exact decodeGroup0_isWordOf (group h)
  case h_9 h => exact decodeGroup8_isWordOf (group h)
  case h_15 h => exact decodeGroupE_isWordOf (group h)
  case h_16 =>
    have := (opG op).isLt
    simp only [imp_false] at *
    exact decodeGroupF_isWordOf (group (g := 0xF) (show _ = 15 by omega))
  case h_6 h =>
    split
    · next hn => exact ⟨rfl, formatR_of_opG (group h) hn⟩
    · next hn => exact ⟨unassignedWord_iff.mpr (by simp [group (g := 0x5) h, hn]), rfl⟩
  case h_10 h =>
    split
    · next hn => exact ⟨rfl, formatR_of_opG (group h) hn⟩
    · next hn => exact ⟨unassignedWord_iff.mpr (by simp [group (g := 0x9) h, hn]), rfl⟩
  case h_2 h | h_3 h | h_11 h | h_12 h => exact ⟨rfl, formatA_of_opG (group h)⟩
  case h_4 h | h_5 h | h_7 h | h_8 h | h_13 h => exact ⟨rfl, formatI_of_opG (group h)⟩
  case h_14 h => exact ⟨rfl, formatR_of_opG (group h) rfl⟩

end Fields

/-- Settles O45: the fields R49 tests are the literal digits of the decoding's format, and the others
are its operands. -/
theorem encodeInvertsDecode : Obligations.EncodeInvertsDecode := decode_isWordOf

/-! ### Bytes -/

/-- The two bytes of a well-formed instruction decode to it (R32, R45). -/
theorem decodeBytes_encodeBytes {i : Instr} (h : i.wellFormed = true) (rest : List Byte) :
    decodeBytes (encodeBytes i ++ rest) = .ok (i, rest) := by
  show Except.ok (decode (wordOfBytes (hiByte (encode i)) (loByte (encode i))), rest) = _
  rw [wordOfBytes_bytes, decode_encode h]

/-- Settles O47: each sample is the two bytes of its instruction, by the formats of tables E2, E3. -/
theorem sampleWordsDecodeByTheTable : Obligations.SampleWordsDecodeByTheTable :=
  ⟨decodeBytes_encodeBytes (i := .cls) rfl [], decodeBytes_encodeBytes (i := .call 0xABC) rfl [],
    decodeBytes_encodeBytes (i := .seKk 10 0x7F) rfl [],
    decodeBytes_encodeBytes (i := .subVy 10 11) rfl [],
    decodeBytes_encodeBytes (i := .ldI 0x20E) rfl [],
    decodeBytes_encodeBytes (i := .drw 1 2 5) rfl [], decodeBytes_encodeBytes (i := .sknp 3) rfl [],
    decodeBytes_encodeBytes (i := .ldB 4) rfl [],
    decodeBytes_encodeBytes (i := .unassigned 0x5AB1) rfl []⟩

end Sys2Proof
end

section
/-!
The opcode map and the decoder agree: a word selects the row that its decoding names, and no other
(R50, R51).
-/

namespace Sys2Proof

open Sys2Proof.Safety

/-! ### The fields that a row fixes -/

section Selects

variable {r : OpRow} {op : Word} (h : r.selects op = true)
include h

/-- Where the mask of a row has a bit, a word that selects the row agrees with its fixed bits. -/
theorem and_eq_of_selects {m : Word} (hm : r.mask &&& m = m) : op &&& m = r.bits &&& m := by
  rw [← eq_of_beq h, BitVec.and_assoc, hm]

theorem opG_of_selects (hm : r.mask &&& 0xF000#16 = 0xF000#16) : opG op = opG r.bits := by
  have := congrArg opG (and_eq_of_selects h hm)
  rwa [mask_group, mask_group, opG_formatA, opG_formatA] at this

theorem opN_of_selects (hm : r.mask &&& 0xF00F#16 = 0xF00F#16) : opN op = opN r.bits := by
  have := congrArg opN (and_eq_of_selects h hm)
  rwa [mask_group_digit, mask_group_digit, opN_formatR, opN_formatR] at this

theorem opKk_of_selects (hm : r.mask &&& 0xF0FF#16 = 0xF0FF#16) : opKk op = opKk r.bits := by
  have := congrArg opKk (and_eq_of_selects h hm)
  rwa [mask_group_byte, mask_group_byte, opKk_formatI, opKk_formatI] at this

end Selects

/-! ### Rows and mnemonics -/

/-- The mnemonic of a word depends only on the fields that R49 tests in its group. -/
theorem mnemonic_decode_congr {op op' : Word} (hg : opG op' = opG op)
    (hw : opG op = 0x0#4 → op' = op) (hn : opG op ∈ [0x5#4, 0x8#4, 0x9#4] → opN op' = opN op)
    (hk : opG op ∈ [0xE#4, 0xF#4] → opKk op' = opKk op) :
    (decode op').mnemonic = (decode op).mnemonic := by
  unfold decode
  rw [hg]
  split
  case h_1 h => rw [hw (BitVec.eq_of_toNat_eq h)]
  case h_6 h | h_10 h =>
    rw [hn (by simp [← BitVec.toNat_inj, h])]
    split <;> rfl
  case h_9 h =>
    unfold decodeGroup8
    rw [hn (by simp [← BitVec.toNat_inj, h])]
    split <;> rfl
  case h_15 h =>
    unfold decodeGroupE
    rw [hk (by simp [← BitVec.toNat_inj, h])]
    simp only [apply_ite Instr.mnemonic]
    rfl
  case h_16 =>
    have := (opG op).isLt
    have h : (opG op).toNat = 15 := by
      clear hg hw hn hk
      simp only [imp_false] at *
      omega
    unfold decodeGroupF
    rw [hk (by simp [← BitVec.toNat_inj, h])]
    simp only [apply_ite Instr.mnemonic]
    rfl
  all_goals rfl

/-- A selected row names the decoding: the row fixes the fields that R49 tests in its group. -/
theorem mnemonic_of_selects {r : OpRow} (hr : r ∈ opcodeMap) {op : Word}
    (h : r.selects op = true) : r.mnemonic = (decode op).mnemonic := by
  have masks : ∀ r ∈ opcodeMap, r.mask &&& 0xF000#16 = 0xF000#16 ∧
      (opG r.bits = 0x0#4 → r.mask &&& 0xFFFF#16 = 0xFFFF#16) ∧
      (opG r.bits ∈ [0x5#4, 0x8#4, 0x9#4] → r.mask &&& 0xF00F#16 = 0xF00F#16) ∧
      (opG r.bits ∈ [0xE#4, 0xF#4] → r.mask &&& 0xF0FF#16 = 0xF0FF#16) := by decide
  have names : ∀ r ∈ opcodeMap, r.mnemonic = (decode r.bits).mnemonic := by decide
  obtain ⟨group, word, digit, byte⟩ := masks r hr
  rw [names r hr, mnemonic_decode_congr (opG_of_selects h group) (fun g => ?_)
    (fun g => opN_of_selects h (digit g)) (fun g => opKk_of_selects h (byte g))]
  have := and_eq_of_selects h (word g)
  rwa [show 0xFFFF#16 = BitVec.allOnes 16 from rfl, BitVec.and_allOnes, BitVec.and_allOnes] at this

/-- The law of every instruction (R50), from the law of each. -/
theorem selects_encode (i : Instr) : Laws.RowOfEncoding.Statement i := by
  open Laws.RowOfEncoding in
  exact i.casesOn cls ret jp call seKk sneKk seVy ldKk addKk ldVy orVy andVy xorVy addVy subVy shr
    subn shl sneVy ldI jpV0 rnd drw skp sknp ldVxDt ldVxK ldDtVx ldStVx addI ldF ldB stRegs ldRegs
    unassigned

/-- A word selects a row of the map exactly when its decoding has the row's name. -/
theorem selects_iff {r : OpRow} (hr : r ∈ opcodeMap) (op : Word) :
    r.selects op = true ↔ r.mnemonic = (decode op).mnemonic := by
  refine ⟨mnemonic_of_selects hr, fun h => ?_⟩
  have := selects_encode (decode op) r hr h
  rwa [(decode_isWordOf op).2] at this

/-- Each assigned mnemonic names one row of the map, and `UNASSIGNED` names none (R50, R51). -/
theorem filter_mnemonic (i : Instr) :
    (opcodeMap.map fun r => r.mnemonic).filter (· == i.mnemonic) =
      if isAssigned i = true then [i.mnemonic] else [] := by
  cases i <;> rfl

/-- Settles O46: the selected rows are those with the name of the decoding. -/
theorem decodeFollowsTheOpcodeMap : Obligations.DecodeFollowsTheOpcodeMap := by
  intro op
  have rows : (opcodeMap.filter fun r => r.selects op) =
      opcodeMap.filter fun r => r.mnemonic == (decode op).mnemonic :=
    List.filter_congr fun r hr => by rw [Bool.eq_iff_iff, selects_iff hr, beq_iff_eq]
  rw [rows, ← filter_mnemonic, List.filter_map]
  rfl

end Sys2Proof
end

section
/-!
The assembler (R53, D20): which lines it accepts, and which instruction each means.
-/

namespace Sys2Proof.Machine

open Sys2Proof.Safety

/-! ### Numbers -/

/-- A number is kept or rejected, never truncated (D20). -/
theorem asmNum_eq_some_iff {w value : Nat} {b : BitVec w} :
    asmNum w value = some b ↔ b.toNat = value := by
  unfold asmNum
  constructor
  · intro h
    split at h
    · next fits =>
      cases h
      exact BitVec.toNat_ofNat _ _ |>.trans (Nat.mod_eq_of_lt fits)
    · cases h
  · rintro rfl
    rw [if_pos b.isLt, BitVec.ofNat_toNat, BitVec.setWidth_eq]

/-- A line with a number means the instruction with that number in its field. -/
theorem map_asmNum_eq_some_iff {w value : Nat} {fill : BitVec w → Instr} {i : Instr} :
    (asmNum w value).map fill = some i ↔ ∃ b, fill b = i ∧ b.toNat = value := by
  simp only [Option.map_eq_some_iff, asmNum_eq_some_iff, and_comm]

theorem asmNum_eq_none {w value : Nat} (h : value ≥ 2 ^ w) : asmNum w value = none :=
  if_neg (Nat.not_lt.mpr h)

/-- `DB` places its bytes as they stand, one by one. -/
theorem mapM_asmNum_eq_some_iff {w : Nat} {values : List Nat} {image : List (BitVec w)} :
    values.mapM (asmNum w) = some image ↔ image.map BitVec.toNat = values := by
  induction values generalizing image with
  | nil => cases image <;> simp
  | cons value rest ih =>
    cases image with
    | nil => simp [List.mapM_cons, Option.bind_eq_some_iff]
    | cons b bs => simp [List.mapM_cons, Option.bind_eq_some_iff, asmNum_eq_some_iff, ih]

/-! ### Lines -/

/-- The line of an instruction assembles to it. -/
theorem asmInstr_asmLine {i : Instr} {m : AsmMnemonic} {operands : List AsmOperand}
    (h : asmLine i = some (m, operands)) : asmInstr m operands = some i := by
  cases i with
  | jp | call | seKk | sneKk | ldKk | addKk | ldI | jpV0 | rnd | drw =>
    cases h
    exact map_asmNum_eq_some_iff.mpr ⟨_, rfl, rfl⟩
  | unassigned => cases h
  | _ => cases h; rfl

/-- A line that assembles is the line of its instruction, or a shift with one operand. -/
theorem asmLine_of_asmInstr {i : Instr} {m : AsmMnemonic} {operands : List AsmOperand}
    (h : asmInstr m operands = some i) : asmLine i = some (m, operands) ∨
      ∃ x, operands = [.reg x] ∧ (m = .shr ∧ i = .shr x 0 ∨ m = .shl ∧ i = .shl x 0) := by
  unfold asmInstr at h
  split at h
  case h_37 => cases h
  case h_28 x => cases h; exact .inr ⟨x, rfl, .inl ⟨rfl, rfl⟩⟩
  case h_31 x => cases h; exact .inr ⟨x, rfl, .inr ⟨rfl, rfl⟩⟩
  case h_3 | h_4 | h_5 | h_6 | h_8 | h_10 | h_12 | h_21 | h_33 | h_34 =>
    obtain ⟨b, rfl, rfl⟩ := map_asmNum_eq_some_iff.mp h
    exact .inl rfl
  all_goals cases h; exact .inl rfl

/-- The number of a line is its last operand, and filling that place assembles to the instruction
with the number in its field. -/
theorem asmLine_numberField {i : Instr} {m : AsmMnemonic} {operands : List AsmOperand}
    {w field : Nat} (line : asmLine i = some (m, operands))
    (number : numberField i = some (w, field)) :
    ∃ (front : List AsmOperand) (fill : BitVec w → Instr),
      operands = front ++ [.num field] ∧ (∀ v, .num v ∉ front) ∧
      ∀ value, asmInstr m (front ++ [.num value]) = (asmNum w value).map fill := by
  cases i <;> cases line <;> cases number
  case jp => exact ⟨[], .jp, rfl, by simp, fun _ => rfl⟩
  case call => exact ⟨[], .call, rfl, by simp, fun _ => rfl⟩
  case ldI => exact ⟨[.i], .ldI, rfl, by simp, fun _ => rfl⟩
  case jpV0 => exact ⟨[.reg 0], .jpV0, rfl, by simp, fun _ => rfl⟩
  case seKk x _ => exact ⟨[.reg x], .seKk x, rfl, by simp, fun _ => rfl⟩
  case sneKk x _ => exact ⟨[.reg x], .sneKk x, rfl, by simp, fun _ => rfl⟩
  case ldKk x _ => exact ⟨[.reg x], .ldKk x, rfl, by simp, fun _ => rfl⟩
  case addKk x _ => exact ⟨[.reg x], .addKk x, rfl, by simp, fun _ => rfl⟩
  case rnd x _ => exact ⟨[.reg x], .rnd x, rfl, by simp, fun _ => rfl⟩
  case drw x y _ => exact ⟨[.reg x, .reg y], .drw x y, rfl, by simp, fun _ => rfl⟩

/-- A number among the operands of an instruction's line is the field it fills. -/
theorem numberField_of_mem_asmLine {i : Instr} {m : AsmMnemonic} {operands : List AsmOperand}
    {value : Nat} (line : asmLine i = some (m, operands)) (mem : .num value ∈ operands) :
    ∃ w, numberField i = some (w, value) ∧ value < 2 ^ w := by
  cases i with
  | jp | call | seKk | sneKk | ldKk | addKk | ldI | jpV0 | rnd | drw =>
    cases line
    obtain rfl : value = _ := by simpa using mem
    exact ⟨_, rfl, BitVec.isLt _⟩
  | _ => cases line <;> simp at mem

/-- A list whose only number is at its end, cut before a number. -/
theorem eq_of_append_num {front before after : List AsmOperand} {k v : Nat}
    (noNum : ∀ v, .num v ∉ front) (h : front ++ [.num k] = before ++ .num v :: after) :
    before = front ∧ after = [] := by
  rcases List.append_eq_append_iff.mp h with ⟨rest, rfl, tail⟩ | ⟨rest, rfl, tail⟩
  · cases rest with
    | nil => exact ⟨List.append_nil _, (List.cons.inj tail).2.symm⟩
    | cons => simp at tail
  · cases rest with
    | nil => exact ⟨(List.append_nil _).symm, (List.cons.inj tail).2⟩
    | cons o os =>
      obtain ⟨rfl, _⟩ := List.cons.inj tail
      exact absurd (by simp) (noNum v)

/-- A line whose number is too large for its field is rejected (D20). -/
theorem asmInstr_eq_none_of_large {i : Instr} {m : AsmMnemonic} {before after : List AsmOperand}
    {w field value : Nat} (line : asmLine i = some (m, before ++ .num field :: after))
    (number : numberField i = some (w, field)) (large : value ≥ 2 ^ w) :
    asmInstr m (before ++ .num value :: after) = none := by
  obtain ⟨front, fill, operands, noNum, assembles⟩ := asmLine_numberField line number
  obtain ⟨rfl, rfl⟩ := eq_of_append_num noNum operands.symm
  rw [assembles, asmNum_eq_none large, Option.map_none]

/-- Settles O49: an accepted line is that of its instruction, and its number is what `asmNum` keeps. -/
theorem assemblerLinesMeanTheirInstructions :
    Obligations.AssemblerLinesMeanTheirInstructions := by
  refine ⟨fun i m operands => ⟨asmLine_of_asmInstr, ?_⟩, fun i m operands value h mem => ?_,
    fun i m before after w field value => asmInstr_eq_none_of_large,
    fun w value b => asmNum_eq_some_iff, fun items start bytes image => mapM_asmNum_eq_some_iff⟩
  · rintro (line | ⟨x, rfl, ⟨rfl, rfl⟩ | ⟨rfl, rfl⟩⟩)
    · exact asmInstr_asmLine line
    · rfl
    · rfl
  · rcases asmLine_of_asmInstr h with line | ⟨x, rfl, _⟩
    · exact numberField_of_mem_asmLine line mem
    · simp at mem

end Sys2Proof.Machine
end

section
/-!
The cycle (spec/40_cycle.md): what `step` answers for each end of a cycle, and from it what the
timers, a fault, the wait and the halt do.
-/

namespace Sys2Proof.Machine

open Sys2Proof.Safety

section Cycle

variable {s t u : State} {i : Instr}

/-! ### The end of a cycle (R65, R67, R69) -/

theorem finishCycle_eq (i : Instr) (s t : State) :
    finishCycle i s t = if ¬ Running t ∨ waits i s = true then t else t.tick := by
  rcases finishCycle_cases i s t with ⟨stays, h⟩ | ⟨runs, moves, h⟩ <;> rw [h]
  · rw [if_pos (stays.imp_left (halted_iff t).mp)]
  · rw [if_neg (by simp [(halted_eq_false_iff t).mp runs, moves])]

/-- The cycle after which the timers tick (R65). -/
theorem step_ticks (hr : Running s) (hp : s.pc.toNat ≤ 0xFFE)
    (hu : exec s.fetchInstr s = .next u) (runs : Running u) (moves : waits s.fetchInstr s = false) :
    step s = .next u.tick := by
  rw [step_exec hr hp hu, finishCycle_eq, if_neg (by simp [runs, moves])]

/-- The cycle that the instruction ends (R67, R69). -/
theorem step_ends (hr : Running s) (hp : s.pc.toNat ≤ 0xFFE)
    (hu : exec s.fetchInstr s = .next u) (ends : ¬ Running u ∨ waits s.fetchInstr s = true) :
    step s = .next u := by
  rw [step_exec hr hp hu, finishCycle_eq, if_pos ends]

/-- Only `LD Vx, K` waits, while no key is pressed (R67). -/
theorem waits_iff : waits i s = true ↔ ∃ x, i = .ldVxK x ∧ s.lowestKey = none := by
  cases i <;> simp [waits]

theorem step_waits (hr : Running s) (hp : s.pc.toNat ≤ 0xFFE)
    (hw : waits s.fetchInstr s = true) : step s = .next s.idle := by
  obtain ⟨x, fetched, released⟩ := waits_iff.mp hw
  exact step_ends hr hp (fetched ▸ exec_ldVxK_wait x released) (.inr hw)

/-- The conditions of table X1 raise the fault of the table (R160, R168). -/
theorem exec_of_faultOf {c : FaultCause} {a : Nat} (h : faultOf i s = some (c, a)) :
    exec i s = .next (s.raise c a) := by
  cases i with
  | call nnn =>
    obtain ⟨full, hca⟩ := Option.ite_none_right_eq_some.mp h
    cases hca
    exact exec_call_full nnn (mt (sp_lt_spMax_iff s).mp (not_not.mpr full))
  | ret =>
    obtain ⟨empty, hca⟩ := Option.ite_none_right_eq_some.mp h
    cases hca
    exact exec_ret_empty (congrArg Fin.val empty)
  | drw x y n =>
    obtain ⟨rows, hdata⟩ := Option.ite_none_left_eq_some.mp h
    obtain ⟨range, hca⟩ := Option.ite_none_right_eq_some.mp hdata
    cases hca
    exact exec_drw_fault x y rows range
  | ldB x =>
    obtain ⟨range, hca⟩ := Option.ite_none_right_eq_some.mp h
    cases hca
    exact exec_ldB_fault x (by omega)
  | stRegs x =>
    obtain ⟨range, hca⟩ := Option.ite_none_right_eq_some.mp h
    cases hca
    exact exec_stRegs_fault x range
  | ldRegs x =>
    obtain ⟨range, hca⟩ := Option.ite_none_right_eq_some.mp h
    cases hca
    exact exec_ldRegs_fault x range
  | _ => cases h

/-- A fault of table X1 has a cause, so raising it stops the core (R61). -/
theorem not_running_raise {c : FaultCause} {a : Nat} (h : faultOf i s = some (c, a)) :
    ¬ Running (s.raise c a) := fun hc => by
  cases (show c = .none from hc)
  exact truthful_of_faultOf h

theorem step_raises {c : FaultCause} {a : Nat} (hr : Running s) (hp : s.pc.toNat ≤ 0xFFE)
    (hf : faultOf s.fetchInstr s = some (c, a)) : step s = .next (s.raise c a) :=
  step_ends hr hp (exec_of_faultOf hf) (.inl (not_running_raise hf))

/-- An instruction that does not fault leaves the latch alone (R22). -/
theorem Effect.fault_eq (e : Effect s i u) (ok : faultOf i s = none) : u.fault = s.fault := by
  rcases e.raises_or_fault_eq with ⟨c, a, hf, _⟩ | h
  · rw [ok] at hf
    cases hf
  · exact h

/-- A completed cycle keeps the core running and ticks the timers (R65). -/
theorem step_completed (hc : cycleEnd s = .completed) (hu : exec s.fetchInstr s = .next u) :
    Running u ∧ step s = .next u.tick := by
  obtain ⟨hr, hp, ok, moves⟩ := cycleEnd_completed hc
  have runs : Running u :=
    (congrArg FaultLatch.cause ((exec_effect hu).fault_eq ok)).trans hr
  exact ⟨runs, step_ticks hr hp hu runs moves⟩

/-- Any other cycle idles or raises a fault (R61, R67, R69). -/
theorem step_of_not_completed (hc : cycleEnd s ≠ .completed) :
    step s = .next s.idle ∨ ∃ c a, step s = .next (s.raise c a) := by
  unfold cycleEnd at hc
  split_ifs at hc with hr hp hf hw
  · exact .inl (step_halted hr)
  · exact .inr ⟨_, _, step_fetchFault (not_not.mp hr) hp⟩
  · obtain ⟨⟨c, a⟩, hf⟩ := Option.isSome_iff_exists.mp hf
    exact .inr ⟨c, a, step_raises (not_not.mp hr) (Nat.le_of_not_lt hp) hf⟩
  · exact .inl (step_waits (not_not.mp hr) (Nat.le_of_not_lt hp) hw)
  · exact absurd rfl hc

theorem step_next (s : State) : ∃ t, step s = .next t := by
  by_cases hc : cycleEnd s = .completed
  · obtain ⟨u, hu⟩ := exec_next s.fetchInstr s
    exact ⟨_, (step_completed hc hu).2⟩
  · rcases step_of_not_completed hc with h | ⟨c, a, h⟩ <;> exact ⟨_, h⟩

/-! ### Runs that stand still (R61, R67) -/

theorem cycles_of_fixed (h : step s = .next s) (k : Nat) : cycles k s = .next s := by
  induction k with
  | zero => exact cycles_zero s
  | succ k ih => exact (cycles_succ h k).trans ih

/-- A core that idles, and would idle again, idles for ever. -/
theorem cycles_of_idle (first : step s = .next s.idle) (again : step s.idle = .next s.idle)
    (k : Nat) : cycles (k + 1) s = .next s.idle :=
  (cycles_succ first k).trans (cycles_of_fixed again k)

/-! ### The random input (R71) -/

theorem withRange_setRndPort {len : Nat} {f : State → State} {b : Option Byte}
    (hf : f (s.setRndPort b) = (f s).setRndPort b) :
    (s.setRndPort b).withRange len f = (s.withRange len f).setRndPort b := by
  rcases withRange_cases s len f with ⟨range, h⟩ | ⟨range, h⟩ <;> rw [h]
  · exact (if_pos range).trans hf
  · exact if_neg (ne_true_of_eq_false range)

/-- An instruction other than `RND` neither reads nor writes the random input. -/
theorem exec_setRndPort (hi : ∀ x kk, i ≠ .rnd x kk) (b : Option Byte) (h : exec i s = .next u) :
    exec i (s.setRndPort b) = .next (u.setRndPort b) := by
  cases i
  case rnd x kk => exact absurd rfl (hi x kk)
  case ret =>
    by_cases h0 : s.sp.val = 0
    · cases h.symm.trans (exec_ret_empty h0)
      exact exec_ret_empty h0
    · cases h.symm.trans (exec_ret_live h0)
      exact exec_ret_live h0
  case call nnn =>
    by_cases h0 : s.sp.val < spMax
    · cases h.symm.trans (exec_call_free nnn h0)
      exact exec_call_free (s := s.setRndPort b) nnn h0
    · cases h.symm.trans (exec_call_full nnn h0)
      exact exec_call_full nnn h0
  case ldVxK x =>
    cases h0 : s.lowestKey
    · cases h.symm.trans (exec_ldVxK_wait x h0)
      exact exec_ldVxK_wait x h0
    · cases h.symm.trans (exec_ldVxK_key x h0)
      exact exec_ldVxK_key x h0
  case drw | ldB | stRegs | ldRegs =>
    cases h
    exact congrArg Host.Outcome.next (withRange_setRndPort rfl)
  all_goals cases h; rfl

theorem finishCycle_setRndPort (i : Instr) (s u : State) (b : Option Byte) :
    finishCycle i (s.setRndPort b) (u.setRndPort b) = (finishCycle i s u).setRndPort b :=
  (apply_ite (State.setRndPort · b) ((u.halted || waits i s) = true) u u.tick).symm

/-- A cycle that runs no `RND` carries the random input along. -/
theorem step_setRndPort (hi : ∀ x kk, s.fetchInstr ≠ .rnd x kk) (b : Option Byte)
    (h : step s = .next t) : step (s.setRndPort b) = .next (t.setRndPort b) := by
  rcases step_cases h with ⟨halted, rfl⟩ | ⟨hr, hp, rfl⟩ | ⟨hr, hp, u, hu, rfl⟩
  · exact step_halted halted
  · exact step_fetchFault hr hp
  · rw [← finishCycle_setRndPort]
    exact step_exec hr hp (exec_setRndPort hi b hu)

/-- A STEP that runs no `RND` is the cycle, with the input let go. -/
theorem hostStep_of_step (hi : ∀ x kk, s.fetchInstr ≠ .rnd x kk) (r : Byte)
    (h : step s = .next t) : hostStep r s = .next (t.setRndPort none) := by
  unfold hostStep
  rw [step_setRndPort hi (some r) h]
  rfl

end Cycle

/-! ### The statements -/

/-- Settles O2: a completed cycle is its effect ticked, and the others idle or raise (R65, R66). -/
theorem timersTickOncePerCompletedCycle : Obligations.TimersTickOncePerCompletedCycle := by
  refine ⟨fun s u hc hu => ?_, fun s t hc ht => ?_⟩
  · exact ⟨u.tick, (step_completed hc hu).2, countDown_toNat _, countDown_toNat _,
      tick_beep_iff u, rfl⟩
  · rcases step_of_not_completed hc with h | ⟨c, a, h⟩ <;> cases ht.symm.trans h <;>
      exact ⟨rfl, rfl, rfl⟩

/-- Settles O3: a halted core idles, and idling keeps the fault (R61). -/
theorem haltedCoreChangesNothing : Obligations.HaltedCoreChangesNothing := fun k s halted =>
  cycles_of_idle (step_halted halted) (step_halted (s := s.idle) halted) k

/-- Settles O4: a waiting core idles, and idling keeps the fetch and the keys (R67). -/
theorem waitingCyclesChangeNothing : Obligations.WaitingCyclesChangeNothing := by
  intro k s x hr hp fetched released
  have hw : waits s.fetchInstr s = true := waits_iff.mpr ⟨x, fetched, lowestKey_none.mpr released⟩
  exact cycles_of_idle (step_waits hr hp hw) (step_waits (s := s.idle) hr hp hw) k

/-- Settles O8: only the cycle that raises a fault stops a running core (R69, R168). -/
theorem faultedCyclesArePrecise : Obligations.FaultedCyclesArePrecise := by
  intro s t hr ht stopped
  by_cases hc : cycleEnd s = .completed
  · obtain ⟨u, hu⟩ := exec_next s.fetchInstr s
    obtain ⟨runs, h⟩ := step_completed hc hu
    cases ht.symm.trans h
    exact absurd runs stopped
  · rcases step_of_not_completed hc with h | ⟨c, a, h⟩ <;> cases ht.symm.trans h
    · exact absurd hr stopped
    · exact ⟨rfl, rfl⟩

/-- Settles O24: with either byte the STEP is the cycle itself (R71). -/
theorem onlyRndReadsTheRandomInput : Obligations.OnlyRndReadsTheRandomInput := by
  intro s r r' hi
  obtain ⟨t, ht⟩ := step_next s
  rw [hostStep_of_step hi r ht, hostStep_of_step hi r' ht]

/-- Settles O1: the two bytes are the fetched word (R60, R62, R63). -/
theorem stepRunsTheFetchedInstruction : Obligations.StepRunsTheFetchedInstruction := by
  rintro s t _ _ i hr hp rfl rfl decoded ht
  obtain rfl : s.fetchInstr = i := congrArg Prod.fst (Except.ok.inj decoded)
  rw [step_exec hr hp ht, finishCycle_eq]

/-- Settles O5: a completed cycle ticks, and every other one idles or raises (R60, R61, R168). -/
theorem everyCycleHasANextState : Obligations.EveryCycleHasANextState := step_next

/-- Settles O17: an unassigned word neither faults nor waits, so its cycle ticks (R68). -/
theorem unassignedOnlyAdvances : Obligations.UnassignedOnlyAdvances := by
  refine fun s op => ⟨⟨s.advance, rfl, rfl, fun _ => rfl, rfl⟩, fun hr hp fetched => ?_⟩
  have hu : exec s.fetchInstr s = .next s.advance := by
    rw [fetched]
    rfl
  exact step_ticks hr hp hu hr (by rw [fetched]; rfl)

end Sys2Proof.Machine
end

section
/-!
Control transfer (spec/41_control_flow.md): the jumps and skips write `PC` alone, `CALL` and `RET` are
inverse up to the entry they free, and no cycle reads an entry at or above `SP`.
-/

namespace Sys2Proof.Machine

open Sys2Proof.Safety

/-! ### The stack as a whole (R15, R16) -/

/-- `s` with another contents of `STACK`. -/
def State.withStack (s : State) (st : Vector Word 16) : State := { s with stack := st }

/-- `st` holds the live entries of `s`, those below `SP`. -/
def LiveStack (s : State) (st : Vector Word 16) : Prop :=
  ∀ k : Fin 16, k.val < s.sp.val → st[k] = s.stack[k]

section Stack

variable {s t u : State} {i : Instr} {st : Vector Word 16}

/-- `LiveStack` speaks of `SP` and the stack only. -/
theorem LiveStack.congr (live : LiveStack s st) (sp : t.sp = s.sp) (stack : t.stack = s.stack) :
    LiveStack t st := by
  unfold LiveStack
  rwa [sp, stack]

/-- The entry a push writes is the new top (R82). -/
theorem top_push (s : State) (w : Word) (free : s.sp.val < spMax) : (s.push w free).top = w :=
  Vector.getElem_set_self _

/-- A pop takes a push back but for the entry, which is dead (R80). -/
theorem pop_push (s : State) (w : Word) (free : s.sp.val < spMax) :
    (s.push w free).pop = s.withStack (s.push w free).stack := rfl

theorem push_stack_ne (s : State) (w : Word) (free : s.sp.val < spMax) {k : Fin 16}
    (h : k.val ≠ s.sp.val) : (s.push w free).stack[k] = s.stack[k] :=
  Vector.getElem_set_ne free k.isLt h.symm

/-- The top entry is live. -/
theorem top_withStack (live : LiveStack s st) (nonempty : s.sp.val ≠ 0) :
    (s.withStack st).top = s.top := by
  have := sp_le s
  exact live ⟨s.sp.val - 1, by omega⟩ (show s.sp.val - 1 < s.sp.val by omega)

theorem LiveStack.push (live : LiveStack s st) (w : Word) (free : s.sp.val < spMax) :
    LiveStack (s.push w free) ((s.withStack st).push w free).stack := by
  intro k hk
  by_cases h : k.val = s.sp.val
  · obtain rfl : k = ⟨s.sp.val, free⟩ := Fin.ext h
    exact (top_push (s.withStack st) w free).trans (top_push s w free).symm
  · rw [push_stack_ne s w free h, push_stack_ne (s.withStack st) w free h]
    exact live k (Nat.lt_of_le_of_ne (Nat.le_of_lt_succ hk) h)

theorem LiveStack.pop (live : LiveStack s st) : LiveStack s.pop st := fun k hk =>
  live k (Nat.lt_of_lt_of_le hk (Nat.sub_le s.sp.val 1))

/-! ### Who reads the stack -/

theorem withRange_withStack {len : Nat} {f : State → State}
    (hf : f (s.withStack st) = (f s).withStack st) :
    (s.withStack st).withRange len f = (s.withRange len f).withStack st := by
  rcases withRange_cases s len f with ⟨range, h⟩ | ⟨range, h⟩ <;> rw [h]
  · exact (if_pos range).trans hf
  · exact if_neg (ne_true_of_eq_false range)

/-- An instruction other than `CALL` and `RET` neither reads nor writes the stack (R15). -/
theorem exec_withStack (hC : ∀ a, i ≠ .call a) (hR : i ≠ .ret) (h : exec i s = .next u) :
    exec i (s.withStack st) = .next (u.withStack st) := by
  cases i
  case call a => exact absurd rfl (hC a)
  case ret => exact absurd rfl hR
  case ldVxK x =>
    cases h0 : s.lowestKey
    · cases h.symm.trans (exec_ldVxK_wait x h0)
      exact exec_ldVxK_wait x h0
    · cases h.symm.trans (exec_ldVxK_key x h0)
      exact exec_ldVxK_key x h0
  case drw | ldB | stRegs | ldRegs =>
    cases h
    exact congrArg Host.Outcome.next (withRange_withStack rfl)
  all_goals cases h; rfl

/-- From equal live entries an instruction comes to equal live entries, and to the same rest. -/
theorem exec_liveStack (live : LiveStack s st) (h : exec i s = .next u) :
    ∃ st', exec i (s.withStack st) = .next (u.withStack st') ∧ LiveStack u st' := by
  cases i with
  | ret =>
    by_cases h0 : s.sp.val = 0
    · cases h.symm.trans (exec_ret_empty h0)
      exact ⟨st, exec_ret_empty h0, live⟩
    · cases h.symm.trans (exec_ret_live h0)
      refine ⟨st, (exec_ret_live (s := s.withStack st) h0).trans ?_, live.pop⟩
      rw [top_withStack live h0]
      rfl
  | call a =>
    by_cases h0 : s.sp.val < spMax
    · cases h.symm.trans (exec_call_free a h0)
      exact ⟨_, exec_call_free (s := s.withStack st) a h0, live.push _ h0⟩
    · cases h.symm.trans (exec_call_full a h0)
      exact ⟨st, exec_call_full a h0, live⟩
  | _ =>
    have e := exec_effect h
    exact ⟨st, exec_withStack nofun nofun h, live.congr (e.sp_eq nofun nofun) (e.stack_eq nofun)⟩

theorem finishCycle_withStack (i : Instr) (s u : State) (st st' : Vector Word 16) :
    finishCycle i (s.withStack st) (u.withStack st') = (finishCycle i s u).withStack st' :=
  (apply_ite (State.withStack · st') ((u.halted || waits i s) = true) u u.tick).symm

theorem LiveStack.finishCycle (live : LiveStack u st) (i : Instr) (s : State) :
    LiveStack (finishCycle i s u) st := by
  rcases finishCycle_cases i s u with ⟨_, h⟩ | ⟨_, _, h⟩ <;> rw [h]
  · exact live
  · exact live.congr rfl rfl

/-- The cycle of `exec_liveStack` (U10). -/
theorem step_liveStack (live : LiveStack s st) (h : step s = .next t) :
    ∃ st', step (s.withStack st) = .next (t.withStack st') ∧ LiveStack t st' := by
  rcases step_cases h with ⟨halted, rfl⟩ | ⟨hr, hp, rfl⟩ | ⟨hr, hp, u, hu, rfl⟩
  · exact ⟨st, step_halted halted, live⟩
  · exact ⟨st, step_fetchFault hr hp, live⟩
  · obtain ⟨st', hu', live'⟩ := exec_liveStack live hu
    refine ⟨st', ?_, live'.finishCycle _ s⟩
    rw [← finishCycle_withStack s.fetchInstr s u st]
    exact step_exec hr hp hu'

end Stack

/-! ### The skips (R64) -/

/-- A skip on a condition that the model tests as a Boolean. -/
theorem skipIf_writesPc (s : State) {c : Bool} {p : Prop} [Decidable p] (h : c = true ↔ p) :
    WritesPc (if p then s.pc + 4 else s.pc + 2) s (s.skipIf c) :=
  ⟨if_congr h rfl rfl, fun _ => rfl, rfl⟩

theorem beq_iff_toNat_eq (a b : Byte) : (a == b) = true ↔ a.toNat = b.toNat :=
  beq_iff_eq.trans BitVec.toNat_inj.symm

theorem bne_iff_toNat_ne (a b : Byte) : (a != b) = true ↔ a.toNat ≠ b.toNat :=
  bne_iff_ne.trans (not_congr BitVec.toNat_inj.symm)

/-! ### The statements -/

/-- Settles O43: the only entry a cycle reads is the top of a nonempty stack, and the only entry that
comes to life is the one `CALL` writes (U10, R80, R82). -/
theorem deadStackEntriesAreUnobservable : Obligations.DeadStackEntriesAreUnobservable := by
  intro s t st live h
  obtain ⟨st', h', live'⟩ := step_liveStack live h
  exact ⟨t.withStack st', h', rfl, live'⟩

/-- Settles O16: the `RET` finds the pushed entry on top and pops it (R80, R82, S10). -/
theorem retUndoesCall : Obligations.RetUndoesCall := by
  intro s t u nnn free hcall hret
  cases hcall.symm.trans (exec_call_free nnn free)
  cases hret.symm.trans (exec_ret_live (Nat.succ_ne_zero s.sp.val))
  have back : ((s.push (s.pc + 2) free).setPc (addrOf nnn)).top = s.pc + 2 := top_push s _ free
  rw [back]
  exact ⟨rfl, fun k => push_stack_ne s (s.pc + 2) free⟩

/-- Settles O11: each skip is `skipIf` on the comparison of its bytes (R83, R84, R85, R86). -/
theorem skipsAddFourOrTwo : Obligations.SkipsAddFourOrTwo := fun s _ _ _ =>
  ⟨⟨_, rfl, skipIf_writesPc s (beq_iff_toNat_eq _ _)⟩,
    ⟨_, rfl, skipIf_writesPc s (bne_iff_toNat_ne _ _)⟩,
    ⟨_, rfl, skipIf_writesPc s (beq_iff_toNat_eq _ _)⟩,
    ⟨_, rfl, skipIf_writesPc s (bne_iff_toNat_ne _ _)⟩⟩

/-- Settles O13: neither target leaves the 16 bits of `PC`, so neither is reduced (R81, R87). -/
theorem jumpsSetPcDirectly : Obligations.JumpsSetPcDirectly := fun s nnn =>
  ⟨⟨_, rfl, addrOf_toNat nnn, fun _ => rfl, rfl⟩,
    ⟨_, rfl, indexedTarget_toNat nnn (s.reg 0), fun _ => rfl, rfl⟩⟩

/-- Settles O14, by the two branches of `CALL` (R82, R161). -/
theorem callPushesTheReturnAddress : Obligations.CallPushesTheReturnAddress := by
  refine fun s nnn => ⟨fun free => ?_, fun full => ?_⟩
  · exact ⟨_, exec_call_free nnn free, top_push s _ free, fun k => push_stack_ne s _ free, rfl,
      addrOf_toNat nnn, fun _ => rfl, rfl⟩
  · exact ⟨_, exec_call_full nnn full.not_lt, rfl, rfl, rfl, rfl⟩

/-- Settles O15, by the two branches of `RET` (R80, R162). -/
theorem retPopsIntoPc : Obligations.RetPopsIntoPc := by
  refine fun s => ⟨fun k hk => ?_, fun empty => ?_⟩
  · have popped : s.sp.val - 1 = k.val := by rw [hk, Nat.add_sub_cancel]
    have top : s.top = s.stack[k] := getElem_congr_idx popped
    exact ⟨_, exec_ret_live (by omega), popped, top, fun _ => rfl, rfl⟩
  · exact ⟨_, exec_ret_empty empty, rfl, rfl, rfl, rfl⟩

end Sys2Proof.Machine
end

section
/-!
The load, arithmetic, logic, shift and random instructions (spec/42_alu.md): every meaning there ends
in one of two shapes, one register written or the flag and then a register, and each shape has its
frame once. What is written comes from the rules of table F1 (R103).
-/

namespace Sys2Proof.Machine

open Sys2Proof.Safety

/-! ### The two shapes of a register write -/

theorem setReg_writesReg (s : State) (x : RegIdx) {b : Byte} {value : Nat} (h : b.toNat = value) :
    WritesReg x value s (s.setReg x b).advance := by
  refine ⟨?_, fun q hq => ?_, rfl, fun _ => rfl, rfl⟩
  · rw [advance_eq, reg_setPc, reg_setReg_same, h]
  · rw [advance_eq, reg_setPc, reg_setReg_ne s b hq]

/-- The result is written second, so with `x` = F it is the flag that is lost (R70). -/
theorem setFlagThenReg_writesFlagAndReg (s : State) (x : RegIdx) {f b : Byte} {flag value : Nat}
    (hf : f.toNat = flag) (hb : b.toNat = value) :
    WritesFlagAndReg x flag value s (s.setFlagThenReg f x b).advance := by
  refine ⟨?_, fun hx => ?_, fun q hq hv => ?_, rfl, fun _ => rfl, rfl⟩
  · rw [advance_eq, reg_setPc, setFlagThenReg_eq, reg_setReg_same, hb]
  · rw [advance_eq, reg_setPc, setFlagThenReg_eq, reg_setReg_ne _ b hx.symm, reg_setReg_same, hf]
  · rw [advance_eq, reg_setPc, setFlagThenReg_eq, reg_setReg_ne _ b hq, reg_setReg_ne s f hv]

/-! ### What is written -/

/-- Reduced to 8 bits, the 9-bit sum wraps around (R96). -/
theorem sum9_setWidth_toNat (a b : Byte) :
    ((sum9 a b).setWidth 8).toNat = (a.toNat + b.toNat) % 256 := by
  rw [BitVec.toNat_setWidth, sum9_toNat]

theorem and_toNat_le_right (b kk : Byte) : (b &&& kk).toNat ≤ kk.toNat := by
  rw [BitVec.toNat_and]
  exact Nat.and_le_right

/-- A masked byte has no bit outside its mask (R101). -/
theorem and_and_not_eq_zero (b kk : Byte) : b &&& kk &&& ~~~kk = 0 := by
  rw [BitVec.and_assoc, BitVec.and_not_self]
  exact BitVec.and_zero

/-! ### The statements -/

/-- Settles O20, by the flag and the result of each operation in numbers (R96, R97, R99). -/
theorem addAndSubtractWriteTheFlag : Obligations.AddAndSubtractWriteTheFlag := by
  rintro s x y _ _ rfl rfl
  exact ⟨⟨_, rfl, setFlagThenReg_writesFlagAndReg s x (carryFlag_toNat _ _)
      (sum9_setWidth_toNat _ _)⟩,
    ⟨_, rfl, setFlagThenReg_writesFlagAndReg s x (notBorrowFlag_toNat _ _) (sub_toNat _ _)⟩,
    ⟨_, rfl, setFlagThenReg_writesFlagAndReg s x (notBorrowFlag_toNat _ _) (sub_toNat _ _)⟩⟩

/-- Settles O21, by the bit moved out and the bits that stay (R98, R100). -/
theorem shiftsMoveOneBitIntoTheFlag : Obligations.ShiftsMoveOneBitIntoTheFlag := by
  rintro s x y _ rfl
  exact ⟨⟨_, rfl, setFlagThenReg_writesFlagAndReg s x (shrFlag_toNat _) (shiftRight_one_toNat _)⟩,
    ⟨_, rfl, setFlagThenReg_writesFlagAndReg s x (shlFlag_toNat _) (shiftLeft_one_toNat _)⟩⟩

/-- Settles O18: each meaning is one register write (R90, R91, R92). -/
theorem loadsAndImmediateAddWriteOneRegister :
    Obligations.LoadsAndImmediateAddWriteOneRegister := fun s x _ _ =>
  ⟨⟨_, rfl, setReg_writesReg s x rfl⟩, ⟨_, rfl, setReg_writesReg s x (BitVec.toNat_add _ _)⟩,
    ⟨_, rfl, setReg_writesReg s x rfl⟩⟩

/-- Settles O19: each meaning is one register write (R93, R94, R95). -/
theorem logicWritesOneRegisterAndNoFlag : Obligations.LogicWritesOneRegisterAndNoFlag := fun s x _ =>
  ⟨⟨_, rfl, setReg_writesReg s x (BitVec.toNat_or _ _)⟩,
    ⟨_, rfl, setReg_writesReg s x (BitVec.toNat_and _ _)⟩,
    ⟨_, rfl, setReg_writesReg s x (BitVec.toNat_xor _ _)⟩⟩

/-- Settles O22: the write of the masked byte, with the draw of the byte counted (R101, log 3). -/
theorem rndMasksTheRandomByte : Obligations.RndMasksTheRandomByte := by
  intro s x kk
  have written : (s.setReg x (s.rndByte &&& kk)).rndDrawn.advance.reg x = s.rndByte &&& kk := by
    rw [advance_eq, reg_setPc, reg_rndDrawn, reg_setReg_same]
  refine ⟨_, rfl, written, ?_, ?_, fun q hq => ?_, rfl, fun _ => rfl, rfl⟩
  · rw [written]
    exact and_toNat_le_right _ kk
  · rw [written]
    exact and_and_not_eq_zero _ kk
  · rw [advance_eq, reg_setPc, reg_rndDrawn, reg_setReg_ne s _ hq]

end Sys2Proof.Machine
end

section
/-!
The index register and memory transfer instructions (spec/43_index_memory.md). The two stores are
one operation, a block of bytes stored from `I` up, and the three transfers take one fault; the
block and the fault have their rules once.
-/

namespace Sys2Proof.Machine

open Sys2Proof.Safety

section Block

variable {s : State} {bs : List Byte}

/-! ### The block stored from `I` up (R113, R114) -/

/-- Each byte of the block is at its own offset (R31, R37). -/
theorem store_advance_read_ea (hm : s.mem.wf) (fits : s.i.toNat + bs.length ≤ 0x1000) {k : Nat}
    (hk : k < bs.length) : (s.store (s.ea 0) bs).advance.mem.read (s.ea k) = bs[k] :=
  Memory.read_writeBytes_inside hm fits hk

theorem store_advance_sameMemoryOutside (a : Nat) {len : Nat} (length : bs.length = len) :
    SameMemoryOutside a len s (s.store a bs).advance := fun _ outside =>
  Memory.read_writeBytes_outside (length ▸ outside)

end Block

/-! ### The fault of the transfers (R34, R164) -/

/-- MemFault.Data writes only `FAULT`, which records the lowest address above 0xFFF (R168). -/
theorem memData_frame {s : State} {i : Instr}
    (h : exec i s = .next (s.raise .memData (max s.i.toNat 0x1000))) :
    ∃ t, exec i s = .next t ∧ t.fault.cause = .memData ∧ t.fault.pc = s.pc ∧
      t.fault.addr.toNat = max s.i.toNat 0x1000 ∧ t = { s with fault := t.fault, beep := false } :=
  ⟨_, h, rfl, rfl, raise_addr_toNat s .memData (faultAddr_lt s.i), rfl⟩

/-! ### What is written -/

/-- Reduced to 16 bits, the sum wraps around (R111, D24). -/
theorem indexSum_setWidth_toNat (i : Word) (a : Byte) :
    ((indexSum i a).setWidth 16).toNat = (i.toNat + a.toNat) % 65536 := by
  rw [BitVec.toNat_setWidth, indexSum_toNat]

/-- A digit fits its byte (R113). -/
theorem digitByte_toNat {d : Nat} (h : d < 10) : (BitVec.ofNat 8 d).toNat = d :=
  (BitVec.toNat_ofNat d 8).trans (Nat.mod_eq_of_lt (Nat.lt_trans h (by decide)))

/-! ### The statements -/

/-- Settles O25: `nnn` and the glyph address both fit `I` (R110, R112). -/
theorem indexLoads : Obligations.IndexLoads := by
  refine fun s nnn x => ⟨⟨_, rfl, addrOf_toNat nnn, rfl, fun _ => rfl, rfl⟩,
    ⟨_, rfl, ?_, rfl, fun _ => rfl, rfl⟩⟩
  have digit : digitOf (s.reg x) < 16 := (s.reg x |>.extractLsb' 0 4).isLt
  rw [← digitOf_eq]
  exact glyphAddr_toNat digit

/-- Settles O26: the flag is written last and the addend is latched, so `x` = F is no special case
(R111). -/
theorem addIndexSetsTheFlag : Obligations.AddIndexSetsTheFlag := by
  rintro s x _ rfl
  refine ⟨_, rfl, indexSum_setWidth_toNat _ _, ?_, fun q hq => ?_, rfl, fun _ => rfl, rfl⟩
  · rw [advance_eq, reg_setPc, reg_setReg_same, indexFlag_toNat]
  · rw [advance_eq, reg_setPc, reg_setReg_ne _ _ hq, reg_setI]

/-- Settles O27: the block of the three digits, or the fault (R113). -/
theorem bcdStoresThreeDigits : Obligations.BcdStoresThreeDigits := by
  rintro s x _ hm rfl
  refine ⟨fun range => ?_, fun above => memData_frame (exec_ldB_fault x above)⟩
  have byte := (s.reg x).isLt
  have fits : s.i.toNat + (bcdDigits (s.reg x)).length ≤ 0x1000 := Nat.add_le_add_right range 3
  refine ⟨_, exec_ldB_ok x range, ?_, ?_, ?_,
    store_advance_sameMemoryOutside _ (bcdDigits_length _), rfl, rfl⟩
  · rw [store_advance_read_ea hm fits (by decide : 0 < 3)]
    exact digitByte_toNat (by omega)
  · rw [store_advance_read_ea hm fits (by decide : 1 < 3)]
    exact digitByte_toNat (Nat.mod_lt _ (by decide))
  · rw [store_advance_read_ea hm fits (by decide : 2 < 3)]
    exact digitByte_toNat (Nat.mod_lt _ (by decide))

/-- Settles O28: the block of `V[0]` to `V[x]`, or the fault (R114). -/
theorem storeRegistersAscending : Obligations.StoreRegistersAscending := by
  refine fun s x hm => ⟨fun range => ?_, fun above => memData_frame (exec_stRegs_fault x above)⟩
  have len := regsUpTo_length s x
  have fits : s.i.toNat + (s.regsUpTo x).length ≤ 0x1000 := by
    rw [ea_eq] at range
    omega
  refine ⟨_, exec_stRegs_ok x range, fun k hk => ?_,
    store_advance_sameMemoryOutside _ len, rfl, rfl⟩
  have inside : k.val < (s.regsUpTo x).length := len ▸ Nat.lt_succ_of_le hk
  rw [store_advance_read_ea hm fits inside, regsUpTo_getElem]

/-- Settles O29: the load register by register, or the fault (R115). -/
theorem loadRegistersAscending : Obligations.LoadRegistersAscending := by
  refine fun s x => ⟨fun range => ?_, fun above => memData_frame (exec_ldRegs_fault x above)⟩
  refine ⟨_, exec_ldRegs_ok x range, fun k hk => ?_, fun k hk => ?_, rfl, fun _ => rfl, rfl⟩
  · rw [advance_eq, reg_setPc, loadRegsUpTo_reg, if_pos hk]
  · rw [advance_eq, reg_setPc, loadRegsUpTo_reg, if_neg (Fin.not_le.mpr hk)]

end Sys2Proof.Machine
end

section
/-!
The framebuffer instructions (spec/44_display.md). `DRW` is one drawing of a sprite and one state
built from it; what a drawing does to the pixels is a matter of `drawSprite` alone, and what the
state keeps a matter of the state alone.
-/

namespace Sys2Proof.Machine

open Sys2Proof.Safety

/-! ### A sprite drawn twice (R121) -/

section Sprite

variable (m : Memory) (base vx vy n : Nat) (f : Framebuffer)

/-- The second drawing flips back what the first one flipped (S6). -/
theorem drawSprite_drawSprite :
    (drawSprite m base vx vy n (drawSprite m base vx vy n f).1).1 = f := by
  refine Framebuffer.ext_pixel fun px py grid => ?_
  rw [drawSprite_pixel _ _ _ _ _ _ grid, drawSprite_pixel _ _ _ _ _ _ grid, Bool.xor_assoc,
    Bool.xor_self, Bool.xor_false]

/-- On a blank framebuffer the first drawing sets just the sprite's own pixels, so the second one
hits each of them. -/
theorem collides_drawSprite_blank :
    collides m base vx vy n (drawSprite m base vx vy n blankFramebuffer).1 ↔
      ∃ px py, onGrid px py ∧ spriteAt m base vx vy n px py = true := by
  refine exists_congr fun px => exists_congr fun py => and_congr_right fun grid => ?_
  rw [drawSprite_pixel _ _ _ _ _ _ grid, pixel_blank, Bool.false_xor, and_self]

end Sprite

theorem collisionFlag_eq_one_iff {c : Bool} : collisionFlag c = 1 ↔ c = true := by
  cases c <;> decide

theorem collisionFlag_eq_zero_iff {c : Bool} : collisionFlag c = 0 ↔ c = false := by
  cases c <;> decide

/-! ### The state after `DRW` -/

section Draw

variable (s : State) (x y : RegIdx) (n : BitVec 4)

/-- The drawing of `DRW Vx, Vy, n`: the framebuffer and the collision bit it leaves (R121). -/
def State.drawing : Framebuffer × Bool :=
  drawSprite s.mem (s.ea 0) (s.reg x).toNat (s.reg y).toNat n.toNat s.fb

/-- The state `DRW Vx, Vy, n` leaves where its sprite is in range (R121). -/
def State.drawn : State :=
  ((s.setFb (s.drawing x y n).1).setReg vf
    (collisionFlag (s.drawing x y n).2)).setDrawPending.advance

theorem exec_drw_drawn {s : State} {n : BitVec 4} (range : n = 0 ∨ s.ea (n.toNat - 1) ≤ 0xFFF) :
    exec (.drw x y n) s = .next (s.drawn x y n) := exec_drw_ok x y range

@[simp] theorem drawn_mem : (s.drawn x y n).mem = s.mem := rfl
@[simp] theorem drawn_ea (k : Nat) : (s.drawn x y n).ea k = s.ea k := rfl
@[simp] theorem drawn_fb : (s.drawn x y n).fb = (s.drawing x y n).1 := rfl

theorem drawn_reg_vf : (s.drawn x y n).reg vf = collisionFlag (s.drawing x y n).2 :=
  reg_setReg_same _ _ _

theorem drawn_reg_ne {q : RegIdx} (h : q ≠ vf) : (s.drawn x y n).reg q = s.reg q :=
  reg_setReg_ne _ _ h

/-- `VF` is 1 exactly on a collision (R121). -/
theorem drawn_reg_vf_eq_one_iff : (s.drawn x y n).reg vf = 1 ↔
    collides s.mem (s.ea 0) (s.reg x).toNat (s.reg y).toNat n.toNat s.fb := by
  rw [drawn_reg_vf, collisionFlag_eq_one_iff]
  exact drawSprite_collision _ _ _ _ _ _

theorem drawn_reg_vf_eq_zero_iff : (s.drawn x y n).reg vf = 0 ↔
    ¬ collides s.mem (s.ea 0) (s.reg x).toNat (s.reg y).toNat n.toNat s.fb := by
  rw [← drawn_reg_vf_eq_one_iff, drawn_reg_vf, collisionFlag_eq_zero_iff,
    collisionFlag_eq_one_iff, Bool.not_eq_true]

/-- The same `DRW` again draws the same sprite at the same place: only with a coordinate in `VF`
could the first one move it. -/
theorem drawing_drawn (hx : x ≠ vf) (hy : y ≠ vf) : (s.drawn x y n).drawing x y n =
    drawSprite s.mem (s.ea 0) (s.reg x).toNat (s.reg y).toNat n.toNat (s.drawing x y n).1 := by
  rw [State.drawing, drawn_reg_ne s x y n hx, drawn_reg_ne s x y n hy]
  rfl

end Draw

/-! ### The statements -/

/-- Settles O32: the pixels and the collision are those of one drawing, and the rest is the frame of
its state (R121, R122). -/
theorem drwXorsTheSpritePixelByPixel : Obligations.DrwXorsTheSpritePixelByPixel := by
  rintro s x y n _ _ rfl rfl range
  exact ⟨_, exec_drw_drawn x y range,
    fun _ _ hpx hpy => drawSprite_pixel _ _ _ _ _ _ ⟨hpx, hpy⟩,
    (drawn_reg_vf_eq_one_iff s x y n).mpr, (drawn_reg_vf_eq_zero_iff s x y n).mpr,
    fun _ => drawn_reg_ne s x y n, rfl, rfl, fun _ => rfl, rfl⟩

/-- Settles O33: the second drawing is of the same sprite at the same place, so it undoes the first
and, from blank, hits every pixel the first one set (R121, S6). -/
theorem drawingTwiceRestoresTheFramebuffer : Obligations.DrawingTwiceRestoresTheFramebuffer := by
  intro s t u x y n hx hy range first second
  obtain rfl : s.drawn x y n = t := by simpa [exec_drw_drawn x y range] using first
  obtain rfl : (s.drawn x y n).drawn x y n = u := by
    simpa [exec_drw_drawn x y (s := s.drawn x y n) range] using second
  refine ⟨?_, fun blank => ?_⟩
  · rw [drawn_fb, drawing_drawn s x y n hx hy]
    exact drawSprite_drawSprite _ _ _ _ _ _
  · rw [drawn_reg_vf_eq_one_iff, drawn_reg_ne s x y n hx, drawn_reg_ne s x y n hy, drawn_fb,
      State.drawing, blank, drawn_mem, drawn_ea, collides_drawSprite_blank]
    simp only [and_assoc]

/-- Settles O31: `CLS` puts the blank framebuffer in place, whose pixels are all clear (R120). -/
theorem clsClearsEveryPixel : Obligations.ClsClearsEveryPixel := fun _ =>
  ⟨_, rfl, fun px py _ _ => pixel_blank px py, rfl, rfl, fun _ => rfl, rfl⟩

end Sys2Proof.Machine
end

section
/-!
The key and timer instructions (spec/45_keys_timers.md): the skips and the wait read the key latch,
and the timer stores are seen by the tick of their own cycle.
-/

namespace Sys2Proof.Machine

open Sys2Proof.Safety

/-! ### The keys (R130, R131, R132) -/

/-- The skips test the key whose index is the low four bits of `Vx` (D10). -/
theorem key_keyOf {s : State} {x : RegIdx} {k : KeyIdx} (hk : k.val = (s.reg x).toNat % 16) :
    s.key (keyOf (s.reg x)) = s.keys[k] :=
  congrArg s.key (Fin.ext ((keyOf_val (s.reg x)).trans hk.symm))

theorem waits_ldVxK (x : RegIdx) (s : State) : waits (.ldVxK x) s = s.lowestKey.isNone := rfl

/-- The index of a key fits the byte it is loaded as (R132). -/
theorem keyByte_toNat (k : KeyIdx) : (BitVec.ofNat 8 k.val).toNat = k.val :=
  Nat.mod_eq_of_lt (k.isLt.trans (by decide))

/-! ### The tick of a timer store (R65, R134, R135) -/

section Tick

variable {s : State} {x : RegIdx}

theorem step_ldDtVx (hr : Running s) (hp : s.pc.toNat ≤ 0xFFE) (fetched : s.fetchInstr = .ldDtVx x) :
    step s = .next (s.setDt (s.reg x)).advance.tick :=
  step_ticks hr hp (fetched ▸ rfl) hr (fetched ▸ rfl)

theorem step_ldStVx (hr : Running s) (hp : s.pc.toNat ≤ 0xFFE) (fetched : s.fetchInstr = .ldStVx x) :
    step s = .next (s.setSt (s.reg x)).advance.tick :=
  step_ticks hr hp (fetched ▸ rfl) hr (fetched ▸ rfl)

end Tick

/-! ### The statements -/

/-- Settles O34: the pressed key below which none is pressed is the lowest one, and without a lowest
key no key is pressed (R132). -/
theorem keyWaitTakesTheLowestKey : Obligations.KeyWaitTakesTheLowestKey := by
  refine fun s x => ⟨fun k pressed low => ?_, fun released => ?_⟩
  · have lowest : s.lowestKey = some k.val := lowestKey_eq pressed low
    refine ⟨_, exec_ldVxK_key x lowest, ?_, setReg_writesReg s x (keyByte_toNat k)⟩
    rw [waits_ldVxK, lowest, Option.isNone_some]
  · have noLowest : s.lowestKey = none := lowestKey_none.mpr released
    exact ⟨exec_ldVxK_wait x noLowest, waits_iff.mpr ⟨x, rfl, noLowest⟩⟩

/-- Settles O36: the tick counts down the byte just stored, and beeps where it was 2 (R65, R66). -/
theorem timerStoresTickInTheirOwnCycle : Obligations.TimerStoresTickInTheirOwnCycle := by
  refine fun s t x hr hp ht => ⟨fun fetched => ?_, fun fetched => ?_⟩
  · cases ht.symm.trans (step_ldDtVx hr hp fetched)
    exact countDown_toNat (s.reg x)
  · cases ht.symm.trans (step_ldStVx hr hp fetched)
    exact ⟨countDown_toNat (s.reg x), tick_beep_iff (s.setSt (s.reg x)).advance⟩

/-- Settles O12: each skip is `skipIf` on the latched bit of the key (R130, R131, D10). -/
theorem keySkipsTestTheLatch : Obligations.KeySkipsTestTheLatch := by
  refine fun s x k hk => ⟨⟨_, rfl, skipIf_writesPc s ?_⟩, ⟨_, rfl, skipIf_writesPc s ?_⟩⟩
  · rw [key_keyOf hk]
  · rw [key_keyOf hk, Bool.not_eq_true']

/-- Settles O35: one write of a register or of a timer, and the advance (R133, R134, R135). -/
theorem timerAccess : Obligations.TimerAccess := fun s x =>
  ⟨⟨_, rfl, setReg_writesReg s x rfl⟩, ⟨_, rfl, rfl, rfl, fun _ => rfl, rfl⟩,
    ⟨_, rfl, rfl, rfl, fun _ => rfl, rfl⟩⟩

end Sys2Proof.Machine
end

section
/-!
The host's operations (spec/47_host_operations.md): what each operation can do, as one inductive
relation, and from it what a run of operations keeps and what it tells by `DP`.
-/

namespace Sys2Proof.Machine

open Sys2Proof.Safety

/-- What a host operation can do to the state, with its guard (R141 to R148). -/
inductive HostEffect (c : Config) (s : State) : HostAction → State → Prop
  | reset : HostEffect c s .reset (hostReset c s)
  | load {bytes} (fits : bytes.length ≤ c.progMax) :
      HostEffect c s (.load bytes) (s.store c.progBase bytes)
  | loadRefused {bytes} (long : c.progMax < bytes.length) : HostEffect c s (.load bytes) s
  | keySet {k pressed} : HostEffect c s (.keySet k pressed) (hostKeySet k pressed s)
  | step {r t} (cycle : step (s.setRndPort (some r)) = .next t) :
      HostEffect c s (.step r) (t.setRndPort none)
  | fbRead : HostEffect c s .fbRead s
  | drawTake : HostEffect c s .drawTake (hostDrawTake s).2
  | status : HostEffect c s .status s

section Host

variable {c : Config} {s t : State} {a : HostAction}

/-! ### What an operation answers -/

theorem hostLoad_fits {bytes : List Byte} (fits : bytes.length ≤ c.progMax) :
    hostLoad c bytes s = .ok (s.store c.progBase bytes) := if_pos fits

theorem hostLoad_long {bytes : List Byte} (long : c.progMax < bytes.length) :
    hostLoad c bytes s = .error .capacityExceeded := if_neg (Nat.not_le_of_lt long)

theorem hostAct_load_fits {bytes : List Byte} (fits : bytes.length ≤ c.progMax) :
    hostAct c (.load bytes) s = .next (.done, s.store c.progBase bytes) := by
  simp only [hostAct, hostLoad_fits fits]

theorem hostAct_load_long {bytes : List Byte} (long : c.progMax < bytes.length) :
    hostAct c (.load bytes) s = .next (.loadFailed .capacityExceeded, s) := by
  simp only [hostAct, hostLoad_long long]

/-- STEP is the cycle with the host's byte held on the input, which is let go afterwards (R144). -/
theorem hostStep_of_cycle {r : Byte} (h : step (s.setRndPort (some r)) = .next t) :
    hostStep r s = .next (t.setRndPort none) := by
  simp only [hostStep, h]

theorem hostAct_step {r : Byte} (h : hostStep r s = .next t) :
    hostAct c (.step r) s = .next (.beep t.beep, t) := by
  simp only [hostAct, h]

/-- Every operation answers, with its effect: none stops the model. -/
theorem exists_hostEffect (c : Config) (a : HostAction) (s : State) :
    ∃ r t, hostAct c a s = .next (r, t) ∧ HostEffect c s a t :=
  match a with
  | .reset => ⟨_, _, rfl, .reset⟩
  | .load bytes =>
    if fits : bytes.length ≤ c.progMax then ⟨_, _, hostAct_load_fits fits, .load fits⟩
    else
      have long := Nat.lt_of_not_le fits
      ⟨_, _, hostAct_load_long long, .loadRefused long⟩
  | .keySet _ _ => ⟨_, _, rfl, .keySet⟩
  | .step r =>
    have ⟨_, h⟩ := step_next (s.setRndPort (some r))
    ⟨_, _, hostAct_step (hostStep_of_cycle h), .step h⟩
  | .fbRead => ⟨_, _, rfl, .fbRead⟩
  | .drawTake => ⟨_, _, rfl, .drawTake⟩
  | .status => ⟨_, _, rfl, .status⟩

/-- A run goes on from where its first operation leads (R140). -/
theorem hostRun_cons {r : HostReply} (h : hostAct c a s = .next (r, t)) (rest : List HostAction) :
    hostRun c (a :: rest) s = hostRun c rest t := by
  simp only [hostRun, h]

/-- A byte that the host holds on the input is the byte of the cycle (R71, R144). -/
theorem rndByte_setRndPort (s : State) (r : Byte) : (s.setRndPort (some r)).rndByte = r := rfl

theorem step_rnd {x : RegIdx} {kk : Byte} (hr : Running s) (hp : s.pc.toNat ≤ 0xFFE)
    (fetched : s.fetchInstr = .rnd x kk) :
    step s = .next (s.setReg x (s.rndByte &&& kk)).rndDrawn.advance.tick :=
  step_ticks hr hp (fetched ▸ rfl) hr (fetched ▸ rfl)

/-! ### The invariant (R14, R22) -/

/-- The bound that D1 puts on `PROG_BASE`. -/
theorem progBase_le (valid : c.Valid) : c.progBase ≤ 0xFFE := by
  obtain ⟨_, base, _⟩ := valid
  exact base

theorem fontImage_length (valid : c.Valid) : c.fontImage.length = fontLength := by
  obtain ⟨_, _, data, _⟩ := valid
  unfold Config.fontImage
  split
  · exact data
  · exact List.length_replicate

theorem resetMemory_wf (valid : c.Valid) : (resetMemory c).wf :=
  Memory.writeBytes_wf ⟨.nil, nofun⟩ (by rw [fontImage_length valid]; decide)

theorem hostReset_pc_toNat (valid : c.Valid) (s : State) : (hostReset c s).pc.toNat = c.progBase :=
  Nat.mod_eq_of_lt (Nat.lt_of_le_of_lt (progBase_le valid) (by decide))

theorem hostReset_inv (valid : c.Valid) (s : State) : Inv (hostReset c s) := by
  refine resetSatisfiesInvariant.of_running rfl rfl (resetMemory_wf valid) ?_
    resetSatisfiesInvariant.stack_le
  rw [hostReset_pc_toNat valid]
  exact Nat.le_trans (progBase_le valid) (by decide)

/-- The invariant asks of memory only its canonical form. -/
theorem setMem_inv (hs : Inv s) {m : Memory} (hm : m.wf) : Inv (s.setMem m) :=
  { hs with mem_wf := hm }

/-- An image of at most `PROG_MAX` bytes ends inside the address space (R142). -/
theorem load_end_le (valid : c.Valid) {bytes : List Byte} (fits : bytes.length ≤ c.progMax) :
    c.progBase + bytes.length ≤ memSize := by
  have base := progBase_le valid
  rw [Config.progMax, memSize_eq] at fits
  rw [memSize_eq]
  omega

theorem HostEffect.inv (e : HostEffect c s a t) (valid : c.Valid) (hs : Inv s) : Inv t := by
  cases e with
  | reset => exact hostReset_inv valid s
  | load fits => exact setMem_inv hs (Memory.writeBytes_wf hs.mem_wf (load_end_le valid fits))
  | @step r _ cycle =>
    have held : Inv (s.setRndPort (some r)) := hs.congr
    exact (cycleKeepsInvariant _ _ held cycle).congr
  | loadRefused | fbRead | status => exact hs
  | keySet | drawTake => exact hs.congr

/-! ### `DP` (R21, R146) -/

/-- The cycle from `s` completes a `CLS` or a `DRW` (R146). -/
def CompletesDraw (s : State) : Prop :=
  cycleEnd s = .completed ∧ (s.fetchInstr = .cls ∨ ∃ x y n, s.fetchInstr = .drw x y n)

theorem exec_draw_dp {i : Instr} (draws : i = .cls ∨ ∃ x y n, i = .drw x y n)
    (ok : faultOf i s = none) (h : exec i s = .next t) : t.dp = true := by
  rcases draws with rfl | ⟨x, y, n, rfl⟩
  · cases h
    rfl
  · cases exec_effect h with
    | drw => rfl
    | fault cause => cases ok.symm.trans cause
    | goto noFlag => cases noFlag
    | reg dest | flagReg dest => cases dest

/-- A cycle sets `DP` exactly by completing a `CLS` or a `DRW`, and never clears it (R21). -/
theorem step_dp_iff (h : step s = .next t) : t.dp = true ↔ s.dp = true ∨ CompletesDraw s := by
  by_cases hc : cycleEnd s = .completed
  · obtain ⟨touched, _⟩ := onlyClsAndDrwTouchTheDisplay s t h
    by_cases draws : s.fetchInstr = .cls ∨ ∃ x y n, s.fetchInstr = .drw x y n
    · obtain ⟨_, _, ok, _⟩ := cycleEnd_completed hc
      obtain ⟨u, hu⟩ := exec_next s.fetchInstr s
      cases h.symm.trans (step_completed hc hu).2
      have dp : u.dp = true := exec_draw_dp draws ok hu
      exact iff_of_true dp (.inr ⟨hc, draws⟩)
    · obtain ⟨noCls, noDrw⟩ := not_or.mp draws
      rw [(touched noCls fun x y n hd => noDrw ⟨x, y, n, hd⟩).2]
      exact (or_iff_left fun completes => draws completes.2).symm
  · have dp : t.dp = s.dp := by
      rcases step_of_not_completed hc with h' | ⟨_, _, h'⟩ <;> cases h.symm.trans h' <;> rfl
    rw [dp]
    exact (or_iff_left fun completes => hc completes.1).symm

/-- The random input has no part in which instruction completes. -/
theorem completesDraw_setRndPort (s : State) (b : Option Byte) :
    CompletesDraw (s.setRndPort b) ↔ CompletesDraw s := Iff.rfl

theorem setsDrawPending_step (r : Byte) (s : State) :
    setsDrawPending (.step r) s ↔ CompletesDraw s := by
  simp [setsDrawPending, CompletesDraw]

/-- Between two takes an operation sets `DP` as R146 says, and never clears it. -/
theorem HostEffect.dp_iff (e : HostEffect c s a t) (noTake : a ≠ .drawTake) :
    t.dp = true ↔ s.dp = true ∨ setsDrawPending a s := by
  cases e with
  | drawTake => exact absurd rfl noTake
  | reset => exact iff_of_true rfl (.inr (.inl rfl))
  | step cycle =>
    rw [setsDrawPending_step, ← completesDraw_setRndPort]
    exact (step_dp_iff cycle :)
  | load | loadRefused | keySet | fbRead | status =>
    exact (or_iff_left (by simp [setsDrawPending])).symm

/-- Some action of the run makes `DP` 1 in the state the run performs it in. -/
def DrawsIn (c : Config) (actions : List HostAction) (s : State) : Prop :=
  ∃ before a after w, actions = before ++ a :: after ∧ hostRun c before s = .next w ∧
    setsDrawPending a w

theorem not_drawsIn_nil : ¬ DrawsIn c [] s := fun ⟨_, _, _, _, split, _⟩ => by
  simp at split

theorem drawsIn_cons {r : HostReply} {rest : List HostAction} (h : hostAct c a s = .next (r, t)) :
    DrawsIn c (a :: rest) s ↔ setsDrawPending a s ∨ DrawsIn c rest t := by
  constructor
  · rintro ⟨before, b, after, w, split, run, sets⟩
    cases before with
    | nil =>
      cases split
      cases run
      exact .inl sets
    | cons _ before =>
      cases split
      rw [hostRun_cons h] at run
      exact .inr ⟨before, b, after, w, rfl, run, sets⟩
  · rintro (sets | ⟨before, b, after, w, rfl, run, sets⟩)
    · exact ⟨[], a, rest, s, rfl, rfl, sets⟩
    · exact ⟨a :: before, b, after, w, rfl, (hostRun_cons h before).trans run, sets⟩

/-- After a run without a take `DP` is 1 exactly when it was, or an action of the run set it. -/
theorem hostRun_dp_iff {actions : List HostAction} (noTake : ∀ a ∈ actions, a ≠ .drawTake)
    (run : hostRun c actions s = .next t) : t.dp = true ↔ s.dp = true ∨ DrawsIn c actions s := by
  induction actions generalizing s with
  | nil =>
    cases run
    exact (or_iff_left not_drawsIn_nil).symm
  | cons a rest ih =>
    obtain ⟨_, u, h, e⟩ := exists_hostEffect c a s
    obtain ⟨noTakeHere, noTakeLater⟩ := List.forall_mem_cons.mp noTake
    rw [hostRun_cons h] at run
    rw [ih noTakeLater run, e.dp_iff noTakeHere, drawsIn_cons h, or_assoc]

/-! ### The bits of the replies (R23, R143) -/

theorem key_hostKeySet_same (k : KeyIdx) (pressed : Bool) (s : State) :
    (hostKeySet k pressed s).key k = pressed := Vector.getElem_set_self k.isLt

theorem key_hostKeySet_ne {j k : KeyIdx} (h : j ≠ k) (pressed : Bool) (s : State) :
    (hostKeySet k pressed s).key j = s.key j :=
  Vector.getElem_set_ne k.isLt j.isLt fun e => h (Fin.ext e.symm)

/-- The code 0 is that of no fault, and of nothing else (R22). -/
theorem code_eq_zero_iff (cause : FaultCause) : cause.code = 0 ↔ cause = .none := by
  cases cause <;> decide

theorem beq_zero_iff (b : Byte) : (b == 0) = true ↔ b.toNat = 0 := beq_iff_toNat_eq b 0

theorem bne_zero_iff (b : Byte) : (b != 0) = true ↔ b.toNat ≠ 0 := bne_iff_toNat_ne b 0

/-- In the linear order of FBREAD the row is the quotient and the column the remainder (D19). -/
theorem hostFbLinear_index (s : State) {px : Nat} (py : Nat) (h : px ≤ 63) :
    hostFbLinear s (py * 64 + px) = s.fb.pixel px py := by
  have column : (py * 64 + px) % 64 = px := by omega
  have row : (py * 64 + px) / 64 = py := by omega
  unfold hostFbLinear
  rw [column, row]

end Host

/-! ### The statements -/

/-- Settles O52, by induction on the operations: each answers, and its effect keeps the invariant
(R140). -/
theorem hostRunKeepsInvariant : Obligations.HostRunKeepsInvariant := by
  intro c actions s valid hs
  induction actions generalizing s with
  | nil => exact ⟨s, rfl, hs⟩
  | cons a rest ih =>
    obtain ⟨_, t, h, e⟩ := exists_hostEffect c a s
    rw [hostRun_cons h]
    exact ih t (e.inv valid hs)

/-- Settles O56: the first take clears `DP`, so at the second it is 1 only by an action of the run
(R146). -/
theorem drawTakeReportsDrawsSinceTheLastTake :
    Obligations.DrawTakeReportsDrawsSinceTheLastTake := by
  intro c actions s t u v b b' noTake first run second
  cases first
  cases second
  exact ⟨rfl, rfl, (hostRun_dp_iff noTake run).trans (or_iff_right Bool.false_ne_true)⟩

/-- Settles O23: the byte on the input is the one the host holds there (R101, R144). -/
theorem stepGivesRndTheHostsByte : Obligations.StepGivesRndTheHostsByte := by
  intro s x kk r hr hp fetched
  refine ⟨_, hostStep_of_cycle (step_rnd (s := s.setRndPort (some r)) hr hp fetched), ?_⟩
  rw [reg_setRndPort, reg_tick, advance_eq, reg_setPc, reg_rndDrawn, reg_setReg_same,
    rndByte_setRndPort]

/-- Settles O55: the image is one block of stores inside the address space, or refused by its length
(R142). -/
theorem loadCopiesOrRefusesTheWholeImage : Obligations.LoadCopiesOrRefusesTheWholeImage := by
  intro c s bytes valid hm
  refine ⟨fun fits => ?_, fun long => ⟨hostLoad_long long, hostAct_load_long long⟩⟩
  exact ⟨_, hostLoad_fits fits,
    fun _ h => Memory.read_writeBytes_inside hm (load_end_le valid fits) h,
    fun _ outside => Memory.read_writeBytes_outside outside, rfl⟩

/-- Settles O57: the replies are the fields of the state, the cause as its code (R143, R145, R148). -/
theorem keySetAndHostReads : Obligations.KeySetAndHostReads := by
  refine fun c s => ⟨fun k p => ⟨_, rfl, key_hostKeySet_same k p s,
      fun j h => key_hostKeySet_ne h p s, rfl⟩, ⟨_, rfl, rfl⟩,
    fun px py hx _ => hostFbLinear_index s py hx, ⟨_, rfl, code_eq_zero_iff _, ?_, ?_, ?_, ?_, ?_,
      rfl, rfl, rfl, rfl, beq_zero_iff _, beq_zero_iff _, bne_zero_iff _⟩⟩
  all_goals exact fun cause => congrArg (BitVec.toNat ·.code) cause

end Sys2Proof.Machine
end

section
/-!
Exceptions (spec/60_exceptions.md): the fault an instruction raises is that of table X1, a cycle
records one exactly where `cycleEnd` says so, and a recorded fault stays until RESET.
-/

namespace Sys2Proof.Machine

open Sys2Proof.Safety

section Faults

variable {s t : State} {i : Instr} {c : FaultCause} {a : Nat}

/-! ### Taking a fault (R168) -/

/-- A raised fault is the latch, read field by field, and nothing else. -/
theorem raise_frame (s : State) (c : FaultCause) (h : a < 0x20000) :
    (s.raise c a).fault.cause = c ∧ (s.raise c a).fault.pc = s.pc ∧
      (s.raise c a).fault.addr.toNat = a ∧
      s.raise c a = { s with fault := (s.raise c a).fault, beep := false } :=
  ⟨rfl, rfl, raise_addr_toNat s c h, rfl⟩

/-- The address that goes with a cause is 0 or that of an access from a 16-bit base, so 17 bits hold
it (R22). -/
theorem addr_lt_of_truthful (h : Truthful s a c) : a < 0x20000 := by
  cases c with
  | none => exact h.elim
  | stackOverflow | stackUnderflow => exact h.2.trans_lt (by decide)
  | memFetch | memData => exact h.2.trans_lt (faultAddr_lt _)

/-! ### When a cycle faults (R167) -/

/-- `cycleEnd` is `faulted` exactly when the cycle records a fault, in the order of test of R167. -/
theorem cycleEnd_faulted_iff (h : step s = .next t) :
    cycleEnd s = .faulted ↔ Running s ∧ ¬ Running t := by
  by_cases hc : cycleEnd s = .completed
  · obtain ⟨u, hu⟩ := exec_next s.fetchInstr s
    obtain ⟨runs, ticked⟩ := step_completed hc hu
    cases h.symm.trans ticked
    exact iff_of_false (by simp [hc]) fun stops => stops.2 runs
  · unfold cycleEnd at hc ⊢
    split_ifs at hc ⊢ with hr hp hf hw
    · exact iff_of_false nofun fun stops => hr stops.1
    · cases h.symm.trans (step_fetchFault (not_not.mp hr) hp)
      exact iff_of_true rfl ⟨not_not.mp hr, nofun⟩
    · obtain ⟨⟨c, a⟩, hf⟩ := Option.isSome_iff_exists.mp hf
      cases h.symm.trans (step_raises (not_not.mp hr) (Nat.le_of_not_lt hp) hf)
      exact iff_of_true rfl ⟨not_not.mp hr, not_running_raise hf⟩
    · cases h.symm.trans (step_waits (not_not.mp hr) (Nat.le_of_not_lt hp) hw)
      exact iff_of_false nofun fun stops => stops.2 stops.1
    · exact absurd rfl hc

/-! ### Well-formed programs (W1, W2 of spec/93_implementation_defined.md) -/

/-- W1 and the data half of W2 leave no condition of table X1. -/
theorem faultOf_eq_none_of_usesOk (stack : stackUseOk i s = true) (data : dataUseOk i s = true) :
    faultOf i s = none := by
  cases i with
  | call nnn =>
    have low : s.sp.val ≤ 14 := of_decide_eq_true stack
    exact if_neg fun full => absurd (full ▸ low) (by decide)
  | ret =>
    have live : 1 ≤ s.sp.val := of_decide_eq_true stack
    exact if_neg fun empty => absurd (empty ▸ live) (by decide)
  | drw x y n =>
    simp only [dataUseOk, Bool.or_eq_true, beq_iff_eq, decide_eq_true_eq] at data
    by_cases rows : n = 0
    · exact if_pos rows
    · have range := data.resolve_left rows
      have rows' : n.toNat ≠ 0 := fun e => rows (BitVec.eq_of_toNat_eq e)
      exact (if_neg rows).trans (if_neg (by omega))
  | ldB | stRegs | ldRegs => exact if_neg (Nat.not_lt_of_le (of_decide_eq_true data))
  | _ => rfl

theorem cycleEnd_ne_faulted {p : Config} (wf : WellFormedCycle p s) : cycleEnd s ≠ .faulted := by
  have ok : ¬ (faultOf s.fetchInstr s).isSome :=
    Option.not_isSome_iff_eq_none.mpr (faultOf_eq_none_of_usesOk wf.stack_ok wf.data_ok)
  unfold cycleEnd
  rw [if_neg (Nat.not_lt_of_le wf.fetch_ok), if_neg ok]
  split_ifs <;> nofun

end Faults

/-! ### The statements -/

/-- Settles O6: the fetch is checked before anything else of a running cycle (R163, R168). -/
theorem fetchAboveMemoryFaults : Obligations.FetchAboveMemoryFaults := fun s hr hp =>
  ⟨_, step_fetchFault hr hp, raise_frame s .memFetch (faultAddr_lt s.pc)⟩

/-- Settles O7: where table X1 has a cause the instruction raises it, and elsewhere its effect leaves
the latch alone (R160, R168). -/
theorem instructionsFaultByTableX1 : Obligations.InstructionsFaultByTableX1 := by
  refine fun i s => ⟨fun c a hf => ?_, fun ok => ?_⟩
  · exact ⟨_, exec_of_faultOf hf, raise_frame s c (addr_lt_of_truthful (truthful_of_faultOf hf))⟩
  · obtain ⟨u, hu, e⟩ := exists_effect s i
    exact ⟨u, hu, e.fault_eq ok⟩

/-- Settles O9, by the ends of a cycle (R60, R167). -/
theorem cycleFaultsExactlyWhenPredicted : Obligations.CycleFaultsExactlyWhenPredicted :=
  fun _ _ => cycleEnd_faulted_iff

/-- Settles O10: W1 and W2 leave no fault for the cycle to record (R176). -/
theorem wellFormedCyclesNeverFault : Obligations.WellFormedCyclesNeverFault := by
  intro c s t hr wf h
  by_contra stops
  exact cycleEnd_ne_faulted wf ((cycleEnd_faulted_iff h).mpr ⟨hr, stops⟩)

end Sys2Proof.Machine
end

section
/-!
The halt (spec/60_exceptions.md R169): what the host can still change of a machine with a fault
recorded. The relation is reflexive and transitive and every operation but RESET stays in it, so it
holds along every run.
-/

namespace Sys2Proof.Machine

open Sys2Proof.Safety

/-- `t` is `s` up to what LOAD, KEYSET, STEP and DRAWTAKE can write of a halted machine: memory from
`PROG_BASE` up, the keys, `DP` and the model's own output and input. -/
def HaltFrame (c : Config) (s t : State) : Prop :=
  t = { s with mem := t.mem, keys := t.keys, dp := t.dp, beep := t.beep, rndPort := t.rndPort } ∧
    ∀ a, a < c.progBase → t.mem.read a = s.mem.read a

section Halt

variable {c : Config} {s t u : State} {a : HostAction}

theorem HaltFrame.refl (c : Config) (s : State) : HaltFrame c s s := ⟨rfl, fun _ _ => rfl⟩

theorem HaltFrame.trans (first : HaltFrame c s t) (second : HaltFrame c t u) : HaltFrame c s u := by
  obtain ⟨frame, below⟩ := first
  obtain ⟨frame', below'⟩ := second
  refine ⟨frame'.trans ?_, fun a h => (below' a h).trans (below a h)⟩
  rw [frame]

theorem running_iff_of_fault_eq (h : t.fault = s.fault) : Running t ↔ Running s := by
  rw [Running, Running, h]

theorem HaltFrame.halted (f : HaltFrame c s t) (halted : ¬ Running s) : ¬ Running t := by
  obtain ⟨frame, _⟩ := f
  have kept : t.fault = s.fault := by rw [frame]
  rwa [running_iff_of_fault_eq kept]

/-- The cycle of a halted core idles, and LOAD stores from `PROG_BASE` up (R61, R142). -/
theorem HostEffect.haltFrame (e : HostEffect c s a t) (halted : ¬ Running s) (noReset : a ≠ .reset) :
    HaltFrame c s t := by
  cases e with
  | reset => exact absurd rfl noReset
  | load => exact ⟨rfl, fun _ below => Memory.read_writeBytes_outside (.inl below)⟩
  | @step r _ cycle =>
    cases cycle.symm.trans (step_halted (s := s.setRndPort (some r)) halted)
    exact ⟨rfl, fun _ _ => rfl⟩
  | keySet | drawTake => exact ⟨rfl, fun _ _ => rfl⟩
  | loadRefused | fbRead | status => exact .refl c s

end Halt

/-- Settles O60, by induction on the operations: each keeps the frame of the halt, and with it the
fault (R169). -/
theorem onlyResetLeavesTheHalt : Obligations.OnlyResetLeavesTheHalt := by
  intro c actions s t halted noReset run
  induction actions generalizing s with
  | nil =>
    cases run
    exact HaltFrame.refl c t
  | cons a rest ih =>
    obtain ⟨_, u, h, e⟩ := exists_hostEffect c a s
    obtain ⟨noResetHere, noResetLater⟩ := List.forall_mem_cons.mp noReset
    have here : HaltFrame c s u := e.haltFrame halted noResetHere
    rw [hostRun_cons h] at run
    exact here.trans (ih u (here.halted halted) noResetLater run)

end Sys2Proof.Machine
end

section
/-!
Reset and the ends of a run (spec/70_reset_and_hazards.md): RESET builds its state from the
parameters alone; over a self-jump the timers count on, and over zero bytes `PC` moves with them, up
to the end of memory.
-/

namespace Sys2Proof.Machine

open Sys2Proof.Safety

/-! ### RESET (R141, R180) -/

/-- A byte of the font region after RESET (R36). -/
theorem fontImage_getD {c : Config} {a : Nat} (h : a < fontLength) :
    c.fontImage.getD a 0 = if c.fontPresent = true then c.fontData.getD a 0 else 0 := by
  unfold Config.fontImage
  split
  · rfl
  · rw [List.getD_replicate _ h]

/-- Memory after RESET: the font region, and zeros above it (R180). -/
theorem resetMemory_read {c : Config} (valid : c.Valid) (a : Nat) :
    (resetMemory c).read a = if a < fontLength then c.fontImage.getD a 0 else 0 := by
  have len := fontImage_length valid
  unfold resetMemory
  split
  · next low =>
    have inside := Memory.read_writeBytes_inside (m := []) (a := fontBase) ⟨.nil, nofun⟩
      (by rw [len]; decide) (len ▸ low)
    rw [Nat.zero_add] at inside
    rw [inside, List.getD_eq_getElem]
  · next high =>
    have above : fontBase + c.fontImage.length ≤ a := by rwa [len, Nat.zero_add, ← Nat.not_lt]
    rw [Memory.read_writeBytes_outside (.inr above), Memory.read_nil,
      Memory.unlisted_above_font (Nat.le_of_not_lt high)]

section Runs

variable {s t u : State} {k n : Nat}

/-! ### Ticks in a row (R65, R66) -/

theorem iterate_tick_dt (n : Nat) (s : State) :
    (State.tick^[n] s).dt.toNat = s.dt.toNat - n := by
  induction n with
  | zero => rfl
  | succ n ih => rw [Function.iterate_succ_apply', tick_dt, countDown_toNat, ih, Nat.sub_sub]

theorem iterate_tick_st (n : Nat) (s : State) :
    (State.tick^[n] s).st.toNat = s.st.toNat - n := by
  induction n with
  | zero => rfl
  | succ n ih => rw [Function.iterate_succ_apply', tick_st, countDown_toNat, ih, Nat.sub_sub]

/-- The last tick of a row beeps when the ticks before it left 2 in `ST`. -/
theorem iterate_tick_beep_iff (k : Nat) (s : State) :
    (State.tick^[k + 1] s).beep = true ↔ s.st.toNat = k + 2 := by
  rw [Function.iterate_succ_apply', tick_beep_iff, iterate_tick_st]
  omega

theorem iterate_tick_frame (n : Nat) (s : State) :
    State.tick^[n] s = { s with
      dt := (State.tick^[n] s).dt, st := (State.tick^[n] s).st,
      beep := (State.tick^[n] s).beep } := by
  induction n with
  | zero => rfl
  | succ n ih =>
    rw [Function.iterate_succ_apply']
    conv_lhs => rw [ih]
    rfl

theorem iterate_tick_mem (n : Nat) (s : State) : (State.tick^[n] s).mem = s.mem := by
  rw [iterate_tick_frame]

theorem iterate_tick_fault (n : Nat) (s : State) : (State.tick^[n] s).fault = s.fault := by
  rw [iterate_tick_frame]

/-! ### Runs -/

/-- One more cycle at the end of a run. -/
theorem cycles_snoc (run : cycles k s = .next t) (last : step t = .next u) :
    cycles (k + 1) s = .next u := by
  induction k generalizing s with
  | zero =>
    cases run
    exact cycles_succ last 0
  | succ k ih =>
    obtain ⟨v, first⟩ := step_next s
    rw [cycles_succ first] at run ⊢
    exact ih run

/-! ### The self-jump (R185) -/

/-- `1nnn` is the group's digit over the target (R47, R81). -/
theorem encode_jp (nnn : BitVec 12) : encode (.jp nnn) = 0x1000 ||| addrOf nnn := rfl

/-- The word at a self-jump means the jump to its own address. -/
theorem fetchInstr_selfJump (h : AtSelfJump s) :
    ∃ nnn, s.fetchInstr = .jp nnn ∧ addrOf nnn = s.pc := by
  obtain ⟨_, range, word⟩ := h
  have target : addrOf (s.pc.setWidth 12) = s.pc := by
    apply BitVec.eq_of_toNat_eq
    rw [addrOf_toNat, BitVec.toNat_setWidth]
    omega
  have encoded : s.fetchWord = encode (.jp (s.pc.setWidth 12)) := by
    rw [encode_jp, target, word]
  exact ⟨_, (congrArg decode encoded).trans (decode_encode rfl), target⟩

/-- The jump puts back the `PC` that is there, so its cycle is the tick alone (R81, R65). -/
theorem step_selfJump (h : AtSelfJump s) : step s = .next s.tick := by
  obtain ⟨nnn, fetched, target⟩ := fetchInstr_selfJump h
  obtain ⟨running, range, _⟩ := h
  have stays : exec s.fetchInstr s = .next s := by
    rw [fetched]
    exact congrArg (Host.Outcome.next <| s.setPc ·) target
  exact step_ticks running range stays running (fetched ▸ rfl)

theorem selfJump_iterate_tick (h : AtSelfJump s) (n : Nat) : AtSelfJump (State.tick^[n] s) := by
  rw [iterate_tick_frame]
  exact h

theorem cycles_selfJump (h : AtSelfJump s) (n : Nat) :
    cycles n s = .next (State.tick^[n] s) := by
  induction n with
  | zero => exact cycles_zero s
  | succ n ih =>
    rw [Function.iterate_succ_apply']
    exact cycles_snoc ih (step_selfJump (selfJump_iterate_tick h n))

/-! ### Zero bytes (R182) -/

/-- The word `0000` is unassigned, and its cycle is a no-op (R51, R68). -/
theorem step_zeros (running : Running s) (range : s.pc.toNat ≤ 0xFFE)
    (hi : s.mem.read s.pc.toNat = 0) (lo : s.mem.read (s.pc.toNat + 1) = 0) :
    step s = .next s.advance.tick := by
  have fetched : s.fetchInstr = .unassigned 0 := by
    rw [State.fetchInstr, State.fetchWord, hi, lo]
    decide
  obtain ⟨_, cycle⟩ := unassignedOnlyAdvances s 0
  exact cycle running range fetched

/-- The state after `n` no-ops. -/
def State.noOps (s : State) (n : Nat) : State :=
  (State.tick^[n] s).setPc (s.pc + BitVec.ofNat 16 (2 * n))

theorem noOps_zero (s : State) : s.noOps 0 = s :=
  congrArg s.setPc (BitVec.add_zero s.pc)

theorem noOps_succ (s : State) (n : Nat) : s.noOps (n + 1) = (s.noOps n).advance.tick := by
  have pc : s.pc + BitVec.ofNat 16 (2 * (n + 1)) = s.pc + BitVec.ofNat 16 (2 * n) + 2 := by
    rw [Nat.mul_succ, BitVec.ofNat_add, BitVec.add_assoc]
    rfl
  unfold State.noOps
  rw [pc, Function.iterate_succ_apply']
  rfl

theorem noOps_pc_toNat (fits : s.pc.toNat + 2 * n ≤ 0x1000) :
    (s.noOps n).pc.toNat = s.pc.toNat + 2 * n := by
  rw [State.noOps, setPc_pc, BitVec.toNat_add, BitVec.toNat_ofNat]
  omega

theorem noOps_mem (s : State) (n : Nat) : (s.noOps n).mem = s.mem := iterate_tick_mem n s

theorem noOps_running (running : Running s) (n : Nat) : Running (s.noOps n) :=
  (running_iff_of_fault_eq (iterate_tick_fault n s)).mpr running

theorem noOps_frame (s : State) (n : Nat) :
    s.noOps n = { s with
      pc := (s.noOps n).pc, dt := (s.noOps n).dt, st := (s.noOps n).st,
      beep := (s.noOps n).beep } := by
  conv_lhs => rw [State.noOps, iterate_tick_frame]
  rfl

/-- Where the bytes up to 0xFFF are zero, every cycle that can fetch is a no-op. -/
theorem cycles_zeros (running : Running s)
    (zeros : ∀ a, s.pc.toNat ≤ a → a ≤ 0xFFF → s.mem.read a = 0)
    (fits : s.pc.toNat + 2 * n ≤ 0x1000) : cycles n s = .next (s.noOps n) := by
  induction n with
  | zero => rw [cycles_zero, noOps_zero]
  | succ n ih =>
    have pc := noOps_pc_toNat (s := s) (n := n) (by omega)
    have last : step (s.noOps n) = .next (s.noOps n).advance.tick := by
      refine step_zeros (noOps_running running n) ?_ ?_ ?_ <;> rw [pc]
      · omega
      all_goals
        rw [noOps_mem]
        exact zeros _ (by omega) (by omega)
    rw [noOps_succ]
    exact cycles_snoc (ih (by omega)) last

end Runs

/-! ### The statements -/

/-- Settles O58: the run is the ticks alone, and the tick keeps the self-jump (R185, R66). -/
theorem selfJumpOnlyCountsTimersDown : Obligations.SelfJumpOnlyCountsTimersDown := fun k s h =>
  ⟨_, cycles_selfJump h (k + 1), iterate_tick_dt _ s, iterate_tick_st _ s,
    iterate_tick_beep_iff k s, iterate_tick_frame _ s, selfJump_iterate_tick h _⟩

/-- Settles O59: the run is no-ops up to the end of memory, where the fetch faults at 0x1000 (R163,
R182). -/
theorem zeroBytesRunOffTheEnd : Obligations.ZeroBytesRunOffTheEnd := by
  refine ⟨fun s => step_zeros, fun k s running zeros fits => ?_⟩
  have fits' : s.pc.toNat + 2 * (k + 1) ≤ 0x1000 := by omega
  have pc := noOps_pc_toNat fits'
  have run := cycles_zeros running zeros fits'
  refine ⟨_, run, pc, iterate_tick_dt _ s, iterate_tick_st _ s, iterate_tick_beep_iff k s,
    noOps_frame s _, fun above => ?_⟩
  obtain ⟨cause, pc_eq, addr, frame⟩ := raise_frame (s.noOps (k + 1)) .memFetch (faultAddr_lt _)
  refine ⟨_, cycles_snoc run (step_fetchFault (noOps_running running _) above), cause, pc_eq,
    addr.trans (Nat.max_eq_right (pc ▸ fits')), frame⟩

/-- Settles O54: RESET takes nothing from the state before but the count of draws, and the standard
memory lists no cell (R141, R180). -/
theorem resetForgetsTheStateBefore : Obligations.ResetForgetsTheStateBefore := by
  refine ⟨fun _ _ _ => rfl, fun c s a valid _ => ?_, fun _ s valid => hostReset_pc_toNat valid s,
    by decide⟩
  refine (resetMemory_read valid a).trans ?_
  split
  · next low => simp only [fontImage_getD low, low, and_true]
  · next high => rw [if_neg fun h => high h.2]

end Sys2Proof.Machine
end
